-- ==== Sys2Proof/Word.lean ====
section
/-! DEFINITION. The word and byte types of the scan converter. -/

namespace Sys2Proof

/-- A 32-bit word: a command word (30_encoding.md R150), a record field (10_state.md R72) or a pixel
word (30_encoding.md R161). -/
abbrev Word := BitVec 32

/-- One 8-bit output channel (10_state.md R63) or one byte of a serialised pixel word (20_memory.md R103). -/
abbrev Byte := BitVec 8

end Sys2Proof
end

