-- ==== Sys2Proof/Machine/Records.lean ====
section
/-! DEFINITION. The data records of the scan converter (10_state.md section 3, 30_encoding.md section 5)
as plain data. -/

namespace Sys2Proof.Machine

/-- The three internal color channels c[0], c[1], c[2] of an endpoint, each held in a 32-bit field
(10_state.md R56). -/
structure Channels where
  ch0 : Word
  ch1 : Word
  ch2 : Word
  deriving DecidableEq, Repr, Inhabited

/-- A vertex record (10_state.md R54, 30_encoding.md R159): `x`, `y`, `w` are Q19.12, `s` and `t` are not
interpreted. DESIGN CHOICE (log 17, safe): the 15-bit color stands in the 16-bit container R159 names,
whose bit 15 the codec ignores. -/
structure Vertex where
  x : Word
  y : Word
  w : Word
  color : BitVec 16
  s : Word
  t : Word
  deriving DecidableEq, Repr, Inhabited

/-- A polygon record (10_state.md R55, 30_encoding.md R160): the vertex indices v[0..n-1] and the flags
the block ignores. The spec's `n` is the length of `v` (log 17). -/
structure Polygon where
  v : List Nat
  flags : Nat
  deriving DecidableEq, Repr, Inhabited

/-- `n`, the vertex count of a polygon record (10_state.md R55). -/
def Polygon.n (r : Polygon) : Nat := r.v.length

/-- An endpoint record (10_state.md R56); also the attribute set {x, w, c, s, t} the interpolator takes
(45_interpolator.md R400). -/
structure Endpoint where
  x : Word
  w : Word
  c : Channels
  s : Word
  t : Word
  deriving DecidableEq, Repr, Inhabited

/-- `ZERO`, the endpoint with every field 0 (10_state.md R56). -/
def Endpoint.zero : Endpoint := ⟨0, 0, ⟨0, 0, 0⟩, 0, 0⟩

/-- The place of a sample between two ends: its offset from the first end, clamped to the range, and the range from
the first end to the second; t is their quotient (45_interpolator.md R401). -/
structure Position where
  offset : Int
  range : Int
  deriving DecidableEq, Repr

/-- An edge record (10_state.md R57). `end0` is the start attribute set (x0, w0, c0, s0, t0), `end1` the
end attribute set (x1, w1, c1, s1, t1), `poly` the owning polygon's identity. -/
structure Edge where
  y0 : Word
  end0 : Endpoint
  y1 : Word
  end1 : Endpoint
  poly : Nat
  deriving DecidableEq, Repr, Inhabited

/-- A span record (10_state.md R58). -/
structure Span where
  ep0 : Endpoint
  ep1 : Endpoint
  poly : Nat
  closed : Bool
  deriving DecidableEq, Repr, Inhabited

/-- A pixel cell (10_state.md R63). `unknown` is the spec's own third value: a cell nothing has written
since INIT. -/
inductive Cell where
  | color (b0 b1 b2 : Byte)
  | unwritten
  | unknown
  deriving DecidableEq, Repr, Inhabited

/-- A row of the scanline cache: WIDTH pixel cells in column order (30_encoding.md R162). -/
abbrev Row := List Cell

/-- A state element that may hold the spec's mark `Unknown` (00_scope.md R11, 10_state.md R70): the mark is
not a value, and nothing but a write turns it into one. -/
inductive Known (α : Type) where
  | unknown
  | known (v : α)
  deriving DecidableEq, Repr

/-- A record-indexed space (20_memory.md R100) or an array with a default (10_state.md R61) as plain data:
(index, record) pairs with strictly rising indexes; an unlisted index holds the default. -/
abbrev Space (α : Type) := List (Nat × α)

end Sys2Proof.Machine
end

