-- ==== Sys2Proof/Config.lean ====
section
/-! DEFINITION. What an instance of the block fixes (00_scope.md R6) and the free values of the spec
(00_scope.md R11 `draw()`, 93_implementation_defined.md part 1). -/

namespace Sys2Proof

/-- LERP, the interpolation arithmetic (00_scope.md R6): a named argument of the model, under the laws R401 to
R409 of 45_interpolator.md (93_implementation_defined.md part 1 row 9). -/
inductive Lerp where
  /-- The reference interpolator (45_interpolator.md R410), the spec's default. -/
  | reference
  /-- Another arithmetic: its number, and the most by which a linear interpolation and a perspective-corrected
  attribute may differ from the exact value rounded down. It rounds as `Config.lerpError` and
  `Config.attributeError` say, within the laws (log 2). -/
  | other (arithmetic linearSlack attributeSlack : Nat)
  deriving DecidableEq, Repr

/-- The interpolator of an instance: T_FRAC_BITS and LERP (00_scope.md R6). -/
structure Interpolation where
  /-- T_FRAC_BITS: fractional bits of the interpolation parameter t. -/
  tFracBits : Nat
  /-- LERP: the interpolation arithmetic. -/
  lerp : Lerp
  deriving DecidableEq, Repr

/-- EDGE_TIE_ORDER and SPAN_TIE_ORDER (00_scope.md R6): how a sort orders records whose keys are equal, a
permutation within each run of equal keys (93_implementation_defined.md part 1 rows 10 and 11). -/
inductive TieOrder where
  /-- Stable: construction order, creation order; the spec's reference. -/
  | stable
  /-- Another order: its number. It ranks the records as `Config.edgeRank` or `Config.spanRank` says (log 3,
  log 4). -/
  | ranked (order : Nat)
  deriving DecidableEq, Repr

/-- The parameters of an instance (00_scope.md R6). They stand in the state (`State.params`), no command
changes them, and a statement over all states is a statement over all parameter values (log 1). -/
structure Params where
  /-- WIDTH: pixels per scanline row. -/
  width : Nat
  /-- SCREEN_HEIGHT: number of scanlines. -/
  screenHeight : Nat
  /-- CACHE_LINES: rows held by the scanline cache. -/
  cacheLines : Nat
  /-- MAX_POLYGONS: polygon capacity and bucket size. -/
  maxPolygons : Nat
  /-- MAX_VERTICES: vertex buffer capacity, the bound of a vertex index. -/
  maxVertices : Nat
  /-- T_FRAC_BITS and LERP: the interpolator. -/
  interpolation : Interpolation
  /-- EDGE_TIE_ORDER: the order of edges with equal sort keys. -/
  edgeTieOrder : TieOrder
  /-- SPAN_TIE_ORDER: the order of spans with equal sort keys. -/
  spanTieOrder : TieOrder
  deriving DecidableEq, Repr

/-- The constraints 00_scope.md R6 puts on the parameters. Those on LERP and on the two tie orders every value of
their types meets. -/
def Params.valid (p : Params) : Bool :=
  decide (1 ≤ p.width) && decide (p.width ≤ 65536) &&
  decide (2 ≤ p.screenHeight) && decide (p.screenHeight ≤ 65536) &&
  decide (1 ≤ p.cacheLines) && decide (p.cacheLines < p.screenHeight) &&
  decide (1 ≤ p.maxPolygons) && decide (p.maxPolygons ≤ 65535) &&
  decide (3 ≤ p.maxVertices) && decide (1 ≤ p.interpolation.tFracBits)

/-- The reference values of 00_scope.md R6. DESIGN CHOICE (log 1, unsafe for a claim about
`State.reset` alone): the source gives none of the sizes and leaves LERP and the tie orders open. -/
def Params.reference : Params where
  width := 256
  screenHeight := 192
  cacheLines := 48
  maxPolygons := 2048
  maxVertices := 6144
  interpolation := ⟨16, .reference⟩
  edgeTieOrder := .stable
  spanTieOrder := .stable

namespace Config

/-- FRAC_BITS = 12 (00_scope.md R6, R12). -/
def fracBits : Nat := 12

/-- MAX_POLY_VERTS = 4 (00_scope.md R6, 90_conflicts.md C5). -/
def maxPolyVerts : Nat := 4

/-- DIV0 (45_interpolator.md R408, 00_scope.md R6): the k-th value `draw()` answers. FREE VALUE (log 5,
safe): nothing constrains it. -/
opaque freeAttribute : Nat → Word

/-- The content the k-th SUBMIT reads from vertex record i when the geometry stage never wrote it
(20_memory.md R101, 10_state.md R70). FREE VALUE (log 7, safe). -/
opaque freeVertex : Nat → Nat → Machine.Vertex

/-- The content the k-th SUBMIT reads from polygon record p when the geometry stage never wrote it
(20_memory.md R102, 10_state.md R70). FREE VALUE (log 7, safe). -/
opaque freePolygon : Nat → Nat → Machine.Polygon

/-- What a DRAW reads from an edge table that is Unknown (10_state.md R70). No run reaches a DRAW that
does. FREE VALUE (log 8, safe). -/
opaque freeEdgeTable : Nat → List Machine.Edge

/-- By how much arithmetic k departs from the exact linear interpolation of a and b at a position, rounded down
(45_interpolator.md R402, R407). FREE VALUE (log 2, safe): `lawfulLinear` keeps the laws whatever it is. -/
opaque lerpError : Nat → Int → Int → Machine.Position → Int

/-- Whether the divisor arithmetic k interpolates between two depths is 0 at a position where it may be
(45_interpolator.md R408). FREE VALUE (log 2, safe): `zeroDivisor` keeps the laws whatever it is. -/
opaque divisorVanishes : Nat → Int → Int → Machine.Position → Bool

/-- By how much arithmetic k departs from the exact quotient, rounded down, of the n-th attribute, of the
attribute and the depth at each end and of the position (45_interpolator.md R403). FREE VALUE (log 2, safe):
`lawfulAttribute` keeps the laws whatever it is. -/
opaque attributeError : Nat → Nat → Int → Int → Int → Int → Machine.Position → Int

/-- The rank tie order k gives the edge at a place of the construction order of a list of edges
(42_edge_table.md R251). FREE VALUE (log 3, safe). -/
opaque edgeRank : Nat → List Machine.Edge → Nat → Nat

/-- The rank tie order k gives the span at a place of the creation order of a list of spans
(44_depth_resolver.md R351). FREE VALUE (log 4, safe). -/
opaque spanRank : Nat → List Machine.Span → Nat → Nat

end Config

end Sys2Proof
end

