-- ==== Sys2Proof/Machine/Numeric.lean ====
section
/-! DEFINITION. The arithmetic primitives of 00_scope.md section 5: exact integers, and `wrap32` where a
result is written to a 32-bit field. -/

namespace Sys2Proof.Machine

/-- `a asr n` is floor(a / 2^n) (00_scope.md R9). -/
def asr (a : Int) (n : Nat) : Int := a / (2 ^ n : Nat)

/-- `a << n` is a * 2^n (00_scope.md R9). -/
def shl (a : Int) (n : Nat) : Int := a * (2 ^ n : Nat)

/-- `floordiv(a, b)`: the floor of the rational a / b, for b not 0 (00_scope.md R9). -/
def floordiv (a b : Int) : Int := Int.fdiv a b

/-- `clamp(v, lo, hi)` is min(max(v, lo), hi) (00_scope.md R9). -/
def clamp (v lo hi : Int) : Int := min (max v lo) hi

/-- `wrap32`: what a 32-bit signed field holds after v is written to it (00_scope.md R10). The field's
value is read back with `BitVec.toInt`. -/
def wrap32 (v : Int) : Word := BitVec.ofInt 32 v

/-- `row(v) = v asr 12`: the scanline a Q19.12 vertical coordinate lies in (00_scope.md R12). -/
def rowOf (v : Word) : Int := asr v.toInt Config.fracBits

/-- `col(v) = v asr 12`: the pixel column a Q19.12 horizontal coordinate lies in (00_scope.md R12). -/
def colOf (v : Word) : Int := asr v.toInt Config.fracBits

/-- The Q19.12 coordinate of an integer row or column: `Y << 12`, `X << 12` (45_interpolator.md R420, R421). -/
def gridPoint (n : Nat) : Int := shl (n : Int) Config.fracBits

end Sys2Proof.Machine
end

