-- ==== Sys2Proof/Machine/Codec.lean ====
section
/-! DEFINITION. The color codec (46_color_codec.md). -/

namespace Sys2Proof.Machine

/-- `raw_k`, channel k of a packed color: bits [5k+4:5k] (46_color_codec.md R450). -/
def rawChannel (color : BitVec 16) (k : Nat) : BitVec 5 := color.extractLsb' (5 * k) 5

/-- `((raw << 1) & 0x3E) | 1` (46_color_codec.md R451), in the 32-bit field of an endpoint. -/
def expandChannel (raw : BitVec 5) : Word := ((raw.zeroExtend 32 <<< 1) &&& 0x3E#32) ||| 1#32

/-- `Expand(color)` (46_color_codec.md R451). -/
def expand (color : BitVec 16) : Channels :=
  ⟨expandChannel (rawChannel color 0), expandChannel (rawChannel color 1),
   expandChannel (rawChannel color 2)⟩

/-- `ContractCh(c)`: `(c << 2) & 0xF8` (46_color_codec.md R452). -/
def contractChannel (c : Word) : Byte := ((c <<< 2) &&& 0xF8#32).truncate 8

/-- `Contract(c0, c1, c2)`: the pixel (46_color_codec.md R453). -/
def contract (c : Channels) : Cell :=
  .color (contractChannel c.ch0) (contractChannel c.ch1) (contractChannel c.ch2)

end Sys2Proof.Machine
end

