-- ==== Sys2Proof/Syntax.lean ====
section
/-! DEFINITION. The six commands of the scan converter (48_commands.md, spec/opcode_table.json). -/

namespace Sys2Proof

/-- A command, the block's analogue of an instruction (30_encoding.md R152). Operands are the unsigned
numbers 30_encoding.md R153 takes from the word. -/
inductive Instr where
  /-- INIT: initialise the block (48_commands.md R551). -/
  | init
  /-- RESET: drop the current geometry (48_commands.md R552). -/
  | reset
  /-- DEINIT: release the block (48_commands.md R556). -/
  | deinit
  /-- SUBMIT N: replace the renderable set with polygons 0 to N-1 (48_commands.md R553). -/
  | submit (n : Nat)
  /-- DRAW Y: compute scanline Y and store it in the cache (48_commands.md R554). -/
  | draw (y : Nat)
  /-- READ Y: return the cached row for scanline Y (48_commands.md R555). -/
  | read (y : Nat)
  deriving DecidableEq, Repr

end Sys2Proof
end

