-- ==== Sys2Proof/WellFormed.lean ====
section
/-! DEFINITION. Which terms of `Instr` a command word can name. -/

namespace Sys2Proof

/-- An operand fits the 16-bit IMM field (30_encoding.md R151, R153, R157). -/
def operandFits (v : Nat) : Bool := decide (v < 65536)

/-- A command is well-formed when its operand fits IMM. The ranges of N and Y are the command's own
checks, not the decoder's (30_encoding.md R153). -/
def Instr.wellFormed : Instr → Bool
  | .init => true
  | .reset => true
  | .deinit => true
  | .submit n => operandFits n
  | .draw y => operandFits y
  | .read y => operandFits y

end Sys2Proof
end

