-- ==== Sys2Proof/Decode.lean ====
section
/-! DEFINITION. The decoder of 30_encoding.md R163, total on every 32-bit word, and the encoder of
30_encoding.md R151, R152. -/

namespace Sys2Proof

/-- OPC, bits [31:28] of the command word (30_encoding.md R151). -/
def opcField (w : Word) : Nat := (w.extractLsb' 28 4).toNat

/-- RSV, bits [27:16] of the command word (30_encoding.md R151). -/
def rsvField (w : Word) : Nat := (w.extractLsb' 16 12).toNat

/-- IMM, bits [15:0] of the command word, zero-extended (30_encoding.md R151, R153). -/
def immField (w : Word) : Nat := (w.extractLsb' 0 16).toNat

/-- What a command word decodes to (30_encoding.md R163). -/
inductive Decoded where
  | command (i : Instr)
  | illegal
  | reservedField
  deriving DecidableEq, Repr

/-- `decode` of 30_encoding.md R163 (with R154 and R155). -/
def decode (w : Word) : Decoded :=
  if opcField w < 1 ∨ 6 < opcField w then .illegal
  else if rsvField w ≠ 0 then .reservedField
  else if opcField w ≤ 3 ∧ immField w ≠ 0 then .reservedField
  else
    match opcField w with
    | 1 => .command .init
    | 2 => .command .reset
    | 3 => .command .deinit
    | 4 => .command (.submit (immField w))
    | 5 => .command (.draw (immField w))
    | 6 => .command (.read (immField w))
    | _ => .illegal

/-- A command word from its three fields (30_encoding.md R151). -/
def commandWord (opc : BitVec 4) (rsv : BitVec 12) (imm : BitVec 16) : Word := opc ++ rsv ++ imm

/-- The command word of a command (30_encoding.md R151, R152). An operand that does not fit IMM is cut to
16 bits; a well-formed command has none (log 23). -/
def encode : Instr → Word
  | .init => commandWord 1 0 0
  | .reset => commandWord 2 0 0
  | .deinit => commandWord 3 0 0
  | .submit n => commandWord 4 0 (BitVec.ofNat 16 n)
  | .draw y => commandWord 5 0 (BitVec.ofNat 16 y)
  | .read y => commandWord 6 0 (BitVec.ofNat 16 y)

/-- The command of a decoding, if it is one. -/
def Decoded.instr? : Decoded → Option Instr
  | .command i => some i
  | .illegal => none
  | .reservedField => none

/-- The 32-bit word of a table row's bits: the `nbits` low bits of `w`, every bit above them 0. None when
bits are left above a command word's 32 (30_encoding.md R150: one length). -/
def tableWord (nbits w : Nat) : Option Word :=
  if w % 2 ^ nbits < 2 ^ 32 then some (BitVec.ofNat 32 (w % 2 ^ nbits)) else none

/-- The command the decoder reads from an opcode-table word. -/
def decodeTableWord (nbits w : Nat) : Option Instr :=
  match tableWord nbits w with
  | some u => (decode u).instr?
  | none => none

end Sys2Proof
end

