-- ==== Sys2Proof/Machine/State.lean ====
section
/-! DEFINITION. The architectural state of the scan converter (10_state.md) as plain data, and its
value after power-on. -/

namespace Sys2Proof.Machine

/-- LIFE (10_state.md R52). -/
inductive Life where
  | uninit
  | ready
  | deinit
  deriving DecidableEq, Repr

/-- The fault codes (60_exceptions.md R600). -/
inductive FaultCode where
  | illegalCommand
  | reservedField
  | notReady
  | scanlineRange
  | polygonCount
  | polygonShape
  | vertexIndex
  deriving DecidableEq, Repr

/-- The record the block's FAULT element holds (10_state.md R53). -/
structure FaultRecord where
  code : FaultCode
  word : Word
  deriving DecidableEq, Repr

/-- The working registers of the span assembler (10_state.md R64), Unknown between commands (R50). -/
structure AssemblerRegs where
  /-- The edge cursor, an index into ET. -/
  i : Known Nat
  /-- The current edge. -/
  e : Known Edge
  /-- The sampled endpoint. -/
  ep : Known Endpoint
  deriving DecidableEq, Repr

/-- The working registers of the depth resolver (10_state.md R65), Unknown between commands (R50). -/
structure ResolverRegs where
  /-- The column counter X. -/
  column : Known Nat
  /-- The scan index, an index into ST. -/
  j : Known Nat
  /-- The best candidate, a span index or none. -/
  best : Known (Option Nat)
  /-- The best candidate's depth; none is minus infinity. -/
  bestw : Known (Option Word)
  /-- The sample register. -/
  smp : Known Endpoint
  /-- The winner's sample. -/
  win : Known Endpoint
  /-- The row being assembled. -/
  row : Known Row
  deriving DecidableEq, Repr

/-- The working registers of both sweeps. -/
structure WorkRegs where
  assembler : AssemblerRegs
  resolver : ResolverRegs
  deriving DecidableEq, Repr

/-- Every working register Unknown: their content after power-on, INIT, RESET and DEINIT and between any
two commands (10_state.md R50, R71). -/
def WorkRegs.unknown : WorkRegs :=
  ⟨⟨.unknown, .unknown, .unknown⟩,
   ⟨.unknown, .unknown, .unknown, .unknown, .unknown, .unknown, .unknown⟩⟩

/-- The three record-indexed spaces (20_memory.md R100). An unlisted record of VB or PL was never written by
the geometry stage; an unlisted slot of CACHE is a row of Unknown cells (log 25). -/
structure Memory where
  vb : Space Vertex
  pl : Space Polygon
  cache : Space Row
  deriving DecidableEq, Repr

/-- What the outside world does to the block, in the order it does it (48_commands.md R558, log 11). -/
inductive HostMove where
  /-- The issuer puts a command word on the command port (48_commands.md R550). -/
  | command (w : Word)
  /-- The geometry stage writes vertex record i (20_memory.md R100, R101). -/
  | writeVertex (i : Nat) (v : Vertex)
  /-- The geometry stage writes polygon record p (20_memory.md R100, R102). -/
  | writePolygon (p : Nat) (r : Polygon)
  /-- The block is powered off and on again (60_exceptions.md R604, 70_reset_and_hazards.md R700, log 18). -/
  | powerOn
  deriving DecidableEq, Repr

/-- The state of the machine. -/
structure State where
  /-- The instance's parameters (00_scope.md R6); no step changes them. -/
  params : Params
  /-- LIFE (10_state.md R52). -/
  life : Life
  /-- FAULT (10_state.md R53). -/
  fault : Option FaultRecord
  /-- ET, the edge table (10_state.md R59). -/
  et : Known (List Edge)
  /-- ST, the span table (10_state.md R60). -/
  st : Known (List Span)
  /-- BK, the bucket (10_state.md R61): per polygon identity the index in ST of its open span; an unlisted
  identity is `none`. -/
  bk : Known (Space Nat)
  /-- The working registers of the two sweeps (10_state.md R64, R65). -/
  work : WorkRegs
  /-- VB, PL and CACHE (20_memory.md R100). -/
  mem : Memory
  /-- What the host has sent and the block has not taken yet, oldest first (log 11). -/
  port : List HostMove
  /-- The rows delivered on the row output port, oldest first (48_commands.md R557, log 15). -/
  rowOut : List Row
  /-- The MODEL's own: how many free values have been drawn (log 5). -/
  draws : Nat
  deriving DecidableEq, Repr

/-- Why the MODEL stops (the block's own faults are recorded in `State.fault` and the machine goes on). -/
inductive Fault where
  /-- Raised by the step that takes a `HostMove.writeVertex` whose index is not below MAX_VERTICES: VB has
  no such record (20_memory.md R100). Safe (log 16): the model stops. -/
  | noSuchVertexRecord (i : Nat)
  /-- Raised by the step that takes a `HostMove.writePolygon` whose index is not below MAX_POLYGONS: PL has
  no such record (20_memory.md R100). Safe (log 16): the model stops. -/
  | noSuchPolygonRecord (p : Nat)
  deriving DecidableEq, Repr

/-- Why the model gives an instruction no meaning. -/
inductive Refusal where
  /-- Raised by `exec` for an instruction with no meaning yet. Safe. No arm of `exec` answers it. -/
  | notModelled (mnemonic : String)
  deriving DecidableEq, Repr

/-- The machine right after power-on (10_state.md R71, 70_reset_and_hazards.md R700), with the reference
parameters of 00_scope.md R6 (DESIGN CHOICE, log 1) and `draws` 0 (DESIGN CHOICE, log 5). -/
def State.reset : State where
  params := Params.reference
  life := .uninit
  fault := none
  et := .unknown
  st := .unknown
  bk := .unknown
  work := WorkRegs.unknown
  mem := ⟨[], [], []⟩
  port := []
  rowOut := []
  draws := 0

end Sys2Proof.Machine
end

