-- ==== Sys2Proof/Machine/Ops.lean ====
section
/-! DEFINITION. The named operations over the spaces and the state: reads and writes of VB, PL, CACHE and BK,
raising a fault, power-on, and the frame every command but INIT runs in. -/

namespace Sys2Proof.Machine

/-! ## Spaces -/

/-- The record at index `i` of a space, or none where the index is unlisted. -/
def Space.get {α : Type} : Space α → Nat → Option α
  | [], _ => none
  | (j, a) :: l, i => if i = j then some a else Space.get l i

/-- Write record `i` of a space, keeping the indexes rising. -/
def Space.set {α : Type} : Space α → Nat → α → Space α
  | [], i, a => [(i, a)]
  | (j, b) :: l, i, a =>
    if i < j then (i, a) :: (j, b) :: l
    else if i = j then (i, a) :: l
    else (j, b) :: Space.set l i a

/-- Put index `i` of a space back to its default. -/
def Space.erase {α : Type} : Space α → Nat → Space α
  | [], _ => []
  | (j, b) :: l, i => if i = j then Space.erase l i else (j, b) :: Space.erase l i

/-- The indexes of a space rise strictly: its one canonical form. -/
def Space.rising {α : Type} : Space α → Bool
  | [] => true
  | (i, _) :: l => l.all (fun e => decide (i < e.1)) && Space.rising l

/-- Every index of a space lies below a bound. -/
def Space.below {α : Type} (bound : Nat) (l : Space α) : Bool := l.all (fun e => decide (e.1 < bound))

/-! ## The scanline cache (47_scanline_cache.md) -/

/-- A row nothing has written since INIT: WIDTH Unknown cells (10_state.md R62, R70). What an unlisted slot of
CACHE reads as. -/
def unknownRow (p : Params) : Row := List.replicate p.width Cell.unknown

/-- The slot of a scanline, `Y mod CACHE_LINES` (47_scanline_cache.md R500). -/
def slotOf (p : Params) (y : Nat) : Nat := y % p.cacheLines

/-- `MemRead(CACHE, k)`: the cells of slot k as they stand (47_scanline_cache.md R502). -/
def readRow (p : Params) (m : Memory) (k : Nat) : Row :=
  match Space.get m.cache k with
  | some row => row
  | none => unknownRow p

/-- `MemWrite(CACHE, k, row)`: replace every cell of slot k (47_scanline_cache.md R501). A row of Unknown cells
is what an unlisted slot reads as, so it is not listed. -/
def writeRow (p : Params) (m : Memory) (k : Nat) (row : Row) : Memory :=
  if row = unknownRow p then { m with cache := Space.erase m.cache k }
  else { m with cache := Space.set m.cache k row }

/-! ## The geometry input (20_memory.md) -/

/-- `MemRead(VB, i)` (20_memory.md R101); a record never written reads as a free value that is one value for
the whole of a SUBMIT (log 7). `k` counts the draws before the SUBMIT. -/
def readVertex (m : Memory) (k i : Nat) : Vertex :=
  match Space.get m.vb i with
  | some v => v
  | none => Config.freeVertex k i

/-- `MemRead(PL, p)` (20_memory.md R102); a record never written reads as a free value that is one value for
the whole of a SUBMIT (log 7). `k` counts the draws before the SUBMIT. -/
def readPolygon (m : Memory) (k p : Nat) : Polygon :=
  match Space.get m.pl p with
  | some r => r
  | none => Config.freePolygon k p

/-- The geometry stage writes vertex record i (20_memory.md R100). -/
def writeVertex (i : Nat) (v : Vertex) (s : State) : State :=
  { s with mem := { s.mem with vb := Space.set s.mem.vb i v } }

/-- The geometry stage writes polygon record p (20_memory.md R100). -/
def writePolygon (p : Nat) (r : Polygon) (s : State) : State :=
  { s with mem := { s.mem with pl := Space.set s.mem.pl p r } }

/-- The canonical form of the memory: in each space the indexes rise strictly and lie in the space
(20_memory.md R100), every listed row has WIDTH cells, and none is what an unlisted slot reads as. -/
def Memory.wf (p : Params) (m : Memory) : Bool :=
  Space.rising m.vb && Space.below p.maxVertices m.vb &&
  Space.rising m.pl && Space.below p.maxPolygons m.pl &&
  Space.rising m.cache && Space.below p.cacheLines m.cache &&
  m.cache.all (fun e => decide (e.2.length = p.width) && decide (e.2 ≠ unknownRow p))

/-! ## Faults (60_exceptions.md) -/

/-- The 3-bit code of a fault (60_exceptions.md R600). Code 0 is no fault. -/
def FaultCode.code : FaultCode → BitVec 3
  | .illegalCommand => 1
  | .reservedField => 2
  | .notReady => 3
  | .scanlineRange => 4
  | .polygonCount => 5
  | .polygonShape => 6
  | .vertexIndex => 7

/-- `raise Fault(code)`: taking a fault (60_exceptions.md R603). FAULT records the code and the command word
and nothing else changes; a recorded fault is never replaced (10_state.md R53, 60_exceptions.md R604). -/
def raiseFault (code : FaultCode) (w : Word) (s : State) : State :=
  match s.fault with
  | none => { s with fault := some ⟨code, w⟩ }
  | some _ => s

/-- Power-on (70_reset_and_hazards.md R700, 10_state.md R71), the only way out of a fault: there is no return
from one (60_exceptions.md R604). VB and PL hold nothing the block may rely on after it (log 18); the rows
already delivered, the words still on the port and the instance's parameters are not the block's to change. -/
def powerOn (s : State) : State :=
  { s with
    life := .uninit
    fault := none
    et := .unknown
    st := .unknown
    bk := .unknown
    work := WorkRegs.unknown
    mem := ⟨[], [], []⟩
    draws := s.draws + 1 }

/-! ## The frame of a command (48_commands.md R550, 60_exceptions.md R602) -/

/-- Perform command `i`: NOT_READY when LIFE is not READY, else the fault `check` finds, else `effect`. Every
check comes before the first state change, so a fault has no effect but its record. -/
def performWhenReady (i : Instr) (check : Option FaultCode) (s effect : State) :
    Host.Outcome State Fault Refusal :=
  if s.life = Life.ready then
    match check with
    | none => .next effect
    | some code => .next (raiseFault code (encode i) s)
  else .next (raiseFault .notReady (encode i) s)

/-! ## The lifecycle effects (48_commands.md R551, R552, R556) -/

/-- `Init()` (48_commands.md R551). FAULT is not changed. -/
def initialise (s : State) : State :=
  { s with
    life := .ready
    et := .known []
    st := .known []
    bk := .known []
    work := WorkRegs.unknown
    mem := { s.mem with cache := [] } }

/-- `Reset()` (48_commands.md R552). LIFE and CACHE are not touched. -/
def dropGeometry (s : State) : State :=
  { s with et := .known [], st := .known [], bk := .known [], work := WorkRegs.unknown }

/-- `Deinit()` (48_commands.md R556). -/
def release (s : State) : State :=
  { s with
    life := .deinit
    et := .unknown
    st := .unknown
    bk := .unknown
    work := WorkRegs.unknown
    mem := { s.mem with cache := [] } }

end Sys2Proof.Machine
end

