-- ==== Sys2Proof/Machine/EdgeBuilder.lean ====
section
/-! DEFINITION. The edge builder (41_edge_builder.md). -/

namespace Sys2Proof.Machine

/-- The attribute set of a vertex, its color expanded (41_edge_builder.md R202, R203). -/
def attributesOf (a : Vertex) : Endpoint := ⟨a.x, a.w, expand a.color, a.s, a.t⟩

/-- `MakeEdge(p, a, b)`: the start is the vertex with the larger y, `a` on equal y (41_edge_builder.md R202,
R203, R204). -/
def makeEdge (p : Nat) (a b : Vertex) : Edge :=
  if b.y.toInt ≤ a.y.toInt then ⟨a.y, attributesOf a, b.y, attributesOf b, p⟩
  else ⟨b.y, attributesOf b, a.y, attributesOf a, p⟩

/-- The edges of one polygon, side (v[k], v[(k+1) mod n]) for k = 0 to n-1 (41_edge_builder.md R201).
`vertex` reads VB. -/
def polygonEdges (vertex : Nat → Vertex) (p : Nat) (r : Polygon) : List Edge :=
  (List.range r.n).map fun k =>
    makeEdge p (vertex (r.v.getD k 0)) (vertex (r.v.getD ((k + 1) % r.n) 0))

/-- `BuildEdges(N)`: polygons in increasing index, sides in increasing index (41_edge_builder.md R200). -/
def buildEdges (m : Memory) (k n : Nat) : List Edge :=
  (List.range n).flatMap fun p => polygonEdges (readVertex m k) p (readPolygon m k p)

end Sys2Proof.Machine
end

