-- ==== Sys2Proof/Machine/TieOrder.lean ====
section
/-! DEFINITION. The parameters EDGE_TIE_ORDER and SPAN_TIE_ORDER (00_scope.md R6): the order a sort leaves records
of equal keys in. -/

namespace Sys2Proof.Machine

/-- The list in the order that decides among equal keys: as it is for the stable order, else by rising rank of
each record's place. A stable sort of the result leaves each run of equal keys in this order
(42_edge_table.md R251, 44_depth_resolver.md R351). -/
def arrange {α : Type} (order : TieOrder) (rank : Nat → List α → Nat → Nat) (l : List α) : List α :=
  match order with
  | .stable => l
  | .ranked k => (l.zipIdx.insertionSort (fun a b => rank k l a.2 ≤ rank k l b.2)).map Prod.fst

end Sys2Proof.Machine
end

