-- ==== Sys2Proof/Machine/EdgeTable.lean ====
section
/-! DEFINITION. The edge table: its sort and the classification of its edges (42_edge_table.md). -/

namespace Sys2Proof.Machine

/-- Edge `a` may stand before edge `b`: descending by (y0, y1), signed, lexicographic
(42_edge_table.md R250). -/
def edgeBefore (a b : Edge) : Bool :=
  decide (b.y0.toInt < a.y0.toInt) ||
  (decide (a.y0.toInt = b.y0.toInt) && decide (b.y1.toInt ≤ a.y1.toInt))

/-- `SortEdges(L)` (42_edge_table.md R250); edges with equal keys stand in the order EDGE_TIE_ORDER gives (R251). -/
def sortEdges (order : TieOrder) (l : List Edge) : List Edge :=
  (arrange order Config.edgeRank l).insertionSort (fun a b => edgeBefore a b = true)

/-- The classes of an edge against a scanline (42_edge_table.md R255). -/
inductive EdgeClass where
  | expired
  | notYet
  | active
  deriving DecidableEq, Repr

/-- `Classify(e, Y)` (42_edge_table.md R255). -/
def classify (e : Edge) (y : Nat) : EdgeClass :=
  if (y : Int) < rowOf e.y1 then .expired
  else if rowOf e.y0 < (y : Int) then .notYet
  else .active

/-- The edge table a DRAW walks: ET, or a free table where ET is Unknown (log 8). -/
def edgeTableOf (et : Known (List Edge)) (k : Nat) : List Edge :=
  match et with
  | .known l => l
  | .unknown => Config.freeEdgeTable k

end Sys2Proof.Machine
end

