-- ==== Sys2Proof/Machine/Operands.lean ====
section
/-! DEFINITION. The operand checks of the commands (60_exceptions.md R601, 48_commands.md R553 to R555). -/

namespace Sys2Proof.Machine

/-- The check of Y that DRAW and READ make before anything else (60_exceptions.md R601). -/
def scanlineCheck (p : Params) (y : Nat) : Option FaultCode :=
  if p.screenHeight ≤ y then some .scanlineRange else none

/-- A polygon record's shape is admitted: n is 3 or 4 (10_state.md R55, 60_exceptions.md R600). -/
def shapeAdmitted (r : Polygon) : Bool := decide (3 ≤ r.n) && decide (r.n ≤ Config.maxPolyVerts)

/-- A polygon record's vertex indices all lie in VB (10_state.md R55). -/
def indicesAdmitted (p : Params) (r : Polygon) : Bool := r.v.all (fun i => decide (i < p.maxVertices))

/-- SUBMIT's checks of one polygon: its vertex count, then its indices (60_exceptions.md R601, R602). -/
def polygonCheck (p : Params) (r : Polygon) : Option FaultCode :=
  if shapeAdmitted r then
    if indicesAdmitted p r then none else some .vertexIndex
  else some .polygonShape

/-- SUBMIT's checks of polygons 0 to N-1 in increasing index; the first that fails decides
(60_exceptions.md R601). -/
def polygonsCheck (p : Params) (m : Memory) (k n : Nat) : Option FaultCode :=
  (List.range n).findSome? (fun q => polygonCheck p (readPolygon m k q))

/-- SUBMIT's checks: N first, then the polygons (60_exceptions.md R601, R602). -/
def submitCheck (n : Nat) (s : State) : Option FaultCode :=
  if s.params.maxPolygons < n then some .polygonCount
  else polygonsCheck s.params s.mem s.draws n

end Sys2Proof.Machine
end

