-- ==== Sys2Proof/Machine/Geometry.lean ====
section
/-! DEFINITION. The meaning of SUBMIT. -/

namespace Sys2Proof.Machine

/-- `ET <- SortEdges(BuildEdges(N))` (42_edge_table.md R252, 41_edge_builder.md R205). The free contents of
never-written geometry records are fresh for the next SUBMIT (log 7). -/
def rebuildEdges (n : Nat) (s : State) : State :=
  { s with et := .known (sortEdges s.params.edgeTieOrder (buildEdges s.mem s.draws n)), draws := s.draws + 1 }

/-- SUBMIT N (48_commands.md R553). -/
def execSubmit (n : Nat) (s : State) : Host.Outcome State Fault Refusal :=
  performWhenReady (.submit n) (submitCheck n s) s (rebuildEdges n s)

end Sys2Proof.Machine
end

