-- ==== Sys2Proof/Machine/Lifecycle.lean ====
section
/-! DEFINITION. The meanings of INIT, RESET and DEINIT. -/

namespace Sys2Proof.Machine

/-- INIT (48_commands.md R551): accepted in every LIFE state. -/
def execInit (s : State) : Host.Outcome State Fault Refusal := .next (initialise s)

/-- RESET (48_commands.md R552). -/
def execReset (s : State) : Host.Outcome State Fault Refusal :=
  performWhenReady .reset none s (dropGeometry s)

/-- DEINIT (48_commands.md R556). -/
def execDeinit (s : State) : Host.Outcome State Fault Refusal :=
  performWhenReady .deinit none s (release s)

end Sys2Proof.Machine
end

