-- ==== Sys2Proof/Machine/Interpolator.lean ====
section
/-! DEFINITION. The perspective-correct interpolator (45_interpolator.md), its arithmetic LERP and T_FRAC_BITS
parameters of the instance (00_scope.md R6): the reference interpolator R410, or another within the laws R401 to
R409 (log 2). -/

namespace Sys2Proof.Machine

/-- The clamped offset of the sample position from ca (45_interpolator.md R401, R410). -/
def clampedOffset (ca cb p : Int) : Int :=
  if 0 < cb - ca then clamp (p - ca) 0 (cb - ca) else clamp (p - ca) (cb - ca) 0

/-- The place of the sample position p between ca and cb (45_interpolator.md R401). -/
def position (ca cb p : Int) : Position := ⟨clampedOffset ca cb p, cb - ca⟩

/-! ## The reference arithmetic -/

/-- t with T fractional bits, rounded down (45_interpolator.md R410); for a range not 0. -/
def fraction (T : Nat) (q : Position) : Int := floordiv (shl q.offset T) q.range

/-- `u = (1 << T) - t` (45_interpolator.md R410). -/
def complement (T : Nat) (t : Int) : Int := shl 1 T - t

/-- The weighted sum `a*u + b*t`, unshifted (45_interpolator.md R410); of two depths, the divisor `D`. -/
def weightedSum (T : Nat) (a b t : Int) : Int := a * complement T t + b * t

/-- `lerp(a, b)` of the reference: the weighted sum, floored (45_interpolator.md R410). -/
def referenceLerp (T : Nat) (a b : Int) (q : Position) : Int :=
  floordiv (weightedSum T a b (fraction T q)) (shl 1 T)

/-- `floordiv(N, D)` of the reference, the sums unshifted (45_interpolator.md R410). -/
def referenceAttribute (T : Nat) (af aw bf bw : Int) (q : Position) : Int :=
  floordiv (weightedSum T (af * aw) (bf * bw) (fraction T q)) (weightedSum T aw bw (fraction T q))

/-! ## Any other arithmetic within the laws (log 2) -/

/-- The exact weighted sum at a position, in units of one part of the range. -/
def exactSum (a b : Int) (q : Position) : Int := a * (q.range - q.offset) + b * q.offset

/-- The exact linear interpolation, rounded down (45_interpolator.md R402). -/
def exactLerp (a b : Int) (q : Position) : Int := floordiv (exactSum a b q) q.range

/-- A value at most `slack` away from `v`, `error` being the difference an arithmetic would have. -/
def near (v : Int) (slack : Nat) (error : Int) : Int := v + clamp error (-slack) slack

/-- Both depths are positive or both negative (45_interpolator.md R409). -/
def sameSign (aw bw : Int) : Bool := (decide (0 < aw) && decide (0 < bw)) || (decide (aw < 0) && decide (bw < 0))

/-- The value v an arithmetic gives a linear interpolation, brought to the laws: the ends' values at the ends
(45_interpolator.md R401, R406), and between them elsewhere (R409). A value that meets them is left alone. -/
def lawfulLinear (a b : Int) (q : Position) (v : Int) : Int :=
  if q.offset = 0 then a
  else if q.offset = q.range then b
  else clamp v (min a b) (max a b)

/-- The value v an arithmetic gives a perspective-corrected attribute, brought to the laws: the ends' values at the
ends (45_interpolator.md R401, R406), `linear` between equal depths (R405), and a value between the ends' where the
depths have one sign (R409). A value that meets them is left alone. -/
def lawfulAttribute (af aw bf bw : Int) (q : Position) (linear v : Int) : Int :=
  if q.offset = 0 then af
  else if q.offset = q.range then bf
  else if aw = bw then linear
  else if sameSign aw bw then clamp v (min af bf) (max af bf)
  else v

/-- The value arithmetic k would give attribute n: near the exact quotient, rounded down, or free where the exact
divisor is 0 (45_interpolator.md R403). -/
def approximateAttribute (k n slack : Nat) (af aw bf bw : Int) (q : Position) : Int :=
  if exactSum aw bw q = 0 then Config.attributeError k n af aw bf bw q
  else near (floordiv (exactSum (af * aw) (bf * bw) q) (exactSum aw bw q)) slack
    (Config.attributeError k n af aw bf bw q)

/-! ## The arithmetic LERP -/

/-- `lerp(a, b)` of the instance (45_interpolator.md R402, R407). -/
def lerp (L : Interpolation) (a b : Int) (q : Position) : Int :=
  match L.lerp with
  | .reference => referenceLerp L.tFracBits a b q
  | .other k slack _ => lawfulLinear a b q (near (exactLerp a b q) slack (Config.lerpError k a b q))

/-- Whether the interpolated w the attributes are divided by is 0 (45_interpolator.md R408). In another arithmetic
than the reference the ends' depths decide it at the ends and between equal depths, it is not 0 between depths of
one sign (R409), and elsewhere it may be 0 where the exact one, rounded down, is within the slack. -/
def zeroDivisor (L : Interpolation) (aw bw : Int) (q : Position) : Bool :=
  match L.lerp with
  | .reference => decide (weightedSum L.tFracBits aw bw (fraction L.tFracBits q) = 0)
  | .other k slack _ =>
    if q.offset = 0 ∨ q.offset = q.range ∨ aw = bw then decide (lerp L aw bw q = 0)
    else !sameSign aw bw && decide ((exactLerp aw bw q).natAbs ≤ slack) && Config.divisorVanishes k aw bw q

/-- The n-th perspective-corrected attribute of the instance, for a divisor not 0 (45_interpolator.md R403). -/
def quotient (L : Interpolation) (n : Nat) (af aw bf bw : Int) (q : Position) : Int :=
  match L.lerp with
  | .reference => referenceAttribute L.tFracBits af aw bf bw q
  | .other k _ slack => lawfulAttribute af aw bf bw q (lerp L af bf q) (approximateAttribute k n slack af aw bf bw q)

/-- The n-th attribute `f` of a sample (45_interpolator.md R403), or its free value, draw k + n, where the divisor
is 0 (R408). -/
def perspective (L : Interpolation) (A B : Endpoint) (f : Endpoint → Word) (n : Nat) (q : Position) (k : Nat) : Word :=
  if zeroDivisor L A.w.toInt B.w.toInt q then Config.freeAttribute (k + n)
  else wrap32 (quotient L n (f A).toInt A.w.toInt (f B).toInt B.w.toInt q)

/-- How many free values one sample draws: one per perspective-corrected attribute when the divisor is 0
(45_interpolator.md R408). -/
def drawsOf (L : Interpolation) (A B : Endpoint) (q : Position) : Nat :=
  if zeroDivisor L A.w.toInt B.w.toInt q then 5 else 0

/-- The sample at a position (45_interpolator.md R402, R403, R407, R409, R410). `k` counts the draws before it:
channel 0, channel 1, channel 2, s and t take draws k to k+4. -/
def sampleAt (L : Interpolation) (A B : Endpoint) (q : Position) (k : Nat) : Endpoint where
  x := wrap32 (lerp L A.x.toInt B.x.toInt q)
  w := wrap32 (lerp L A.w.toInt B.w.toInt q)
  c := ⟨perspective L A B (fun e => e.c.ch0) 0 q k, perspective L A B (fun e => e.c.ch1) 1 q k,
        perspective L A B (fun e => e.c.ch2) 2 q k⟩
  s := perspective L A B (fun e => e.s) 3 q k
  t := perspective L A B (fun e => e.t) 4 q k

/-- `Interp(A, B, ca, cb, p)` (45_interpolator.md R400, R410): `none` is `NoWrite` (R404). The second
component counts the draws after it. -/
def interp (L : Interpolation) (A B : Endpoint) (ca cb p : Int) (k : Nat) : Option Endpoint × Nat :=
  if cb - ca = 0 then (none, k)
  else (some (sampleAt L A B (position ca cb p) k), k + drawsOf L A B (position ca cb p))

/-- `SampleEdge(e, Y)` (45_interpolator.md R420). -/
def sampleEdge (L : Interpolation) (e : Edge) (y k : Nat) : Option Endpoint × Nat :=
  interp L e.end0 e.end1 e.y0.toInt e.y1.toInt (gridPoint y) k

/-- `SampleSpan(s, X)` (45_interpolator.md R421). -/
def sampleSpan (L : Interpolation) (s : Span) (X k : Nat) : Option Endpoint × Nat :=
  interp L s.ep0 s.ep1 s.ep0.x.toInt s.ep1.x.toInt (gridPoint X) k

end Sys2Proof.Machine
end

