-- ==== Sys2Proof/Machine/DepthResolver.lean ====
section
/-! DEFINITION. The span table and the depth resolver (44_depth_resolver.md). -/

namespace Sys2Proof.Machine

/-- Span `a` may stand before span `b`: descending by (ep[0].x, ep[0].w), signed, lexicographic
(44_depth_resolver.md R350). -/
def spanBefore (a b : Span) : Bool :=
  decide (b.ep0.x.toInt < a.ep0.x.toInt) ||
  (decide (a.ep0.x.toInt = b.ep0.x.toInt) && decide (b.ep0.w.toInt ≤ a.ep0.w.toInt))

/-- `SortSpans(ST)` (44_depth_resolver.md R350); spans with equal keys stand in the order SPAN_TIE_ORDER gives
(R351). -/
def sortSpans (order : TieOrder) (st : List Span) : List Span :=
  (arrange order Config.spanRank st).insertionSort (fun a b => spanBefore a b = true)

/-- A span that ends left of column X (44_depth_resolver.md R353). -/
def endsBefore (X : Nat) (s : Span) : Bool := decide (colOf s.ep1.x < (X : Int))

/-- A span that covers column X: both ends inclusive, at integer column scale (44_depth_resolver.md R354). -/
def covers (X : Nat) (s : Span) : Bool :=
  decide (colOf s.ep0.x ≤ (X : Int)) && decide ((X : Int) ≤ colOf s.ep1.x)

/-- `RetireSpans(X)`: remove spans from the tail while the tail span ends left of X
(44_depth_resolver.md R353). -/
def retireSpans (X : Nat) (st : List Span) : List Span := st.rdropWhile (endsBefore X)

/-- The best candidate after candidate `j` is seen at depth `w`: replaced only when strictly deeper, signed
(44_depth_resolver.md R356). None is `best = none` with bestw minus infinity. -/
def better (best : Option (Nat × Word)) (j : Nat) (w : Word) : Option (Nat × Word) :=
  match best with
  | none => some (j, w)
  | some (b, bw) => if bw.toInt < w.toInt then some (j, w) else some (b, bw)

/-- The loop of `Pick(X)`: the spans with index below the first number, from the tail
(44_depth_resolver.md R354 to R356). -/
def pickLoop (L : Interpolation) (X : Nat) (st : List Span) : Nat → Option (Nat × Word) → Nat → Option (Nat × Word) × Nat
  | 0, best, k => (best, k)
  | j + 1, best, k =>
    match st[j]? with
    | none => pickLoop L X st j best k
    | some s =>
      if (X : Int) < colOf s.ep0.x then (best, k)
      else if endsBefore X s then pickLoop L X st j best k
      else
        match sampleSpan L s X k with
        | (none, k') => pickLoop L X st j best k'
        | (some smp, k') => pickLoop L X st j (better best j smp.w) k'

/-- `Pick(X)` (44_depth_resolver.md R354): the winner's index and depth, and the draws after it. -/
def pick (L : Interpolation) (X : Nat) (st : List Span) (k : Nat) : Option (Nat × Word) × Nat :=
  pickLoop L X st st.length none k

/-- `Shade(best, X)`: sample the winner again and contract its color (44_depth_resolver.md R357). A winner
is a span of ST whose sample is no `NoWrite`, so the other cases do not arise. -/
def shade (L : Interpolation) (X : Nat) (st : List Span) (best : Nat) (k : Nat) : Cell × Nat :=
  match st[best]? with
  | none => (.unwritten, k)
  | some s =>
    match sampleSpan L s X k with
    | (some win, k') => (contract win.c, k')
    | (none, k') => (.unwritten, k')

/-- The cell of column X (44_depth_resolver.md R352, R357, R358). -/
def resolveCell (L : Interpolation) (X : Nat) (st : List Span) (k : Nat) : Cell × Nat :=
  match pick L X st k with
  | (none, k') => (.unwritten, k')
  | (some (best, _), k') => shade L X st best k'

/-- What the column sweep leaves: the row, the span table and the draws. -/
structure Resolved where
  row : Row
  st : List Span
  draws : Nat
  deriving DecidableEq, Repr

/-- The column sweep over `n` columns from column X on (44_depth_resolver.md R352). -/
def resolveFrom (L : Interpolation) : Nat → Nat → List Span → Nat → Resolved
  | 0, _, st, k => ⟨[], st, k⟩
  | n + 1, X, st, k =>
    let live := retireSpans X st
    let cell := resolveCell L X live k
    let rest := resolveFrom L n (X + 1) live cell.2
    { rest with row := cell.1 :: rest.row }

/-- `Resolve(Y)` less its write to the cache: sort, then sweep columns 0 to WIDTH-1
(44_depth_resolver.md R350, R352). -/
def resolve (p : Params) (st : List Span) (k : Nat) : Resolved :=
  resolveFrom p.interpolation p.width 0 (sortSpans p.spanTieOrder st) k

end Sys2Proof.Machine
end

