-- ==== Sys2Proof/Machine/PixelPort.lean ====
section
/-! DEFINITION. How a row leaves the block: pixel words (30_encoding.md R161, R162), their bytes
(20_memory.md R103), and the row output port (48_commands.md R557). -/

namespace Sys2Proof.Machine

/-- The pixel word of a cell (30_encoding.md R161, 46_color_codec.md R453). `Unknown` has no encoding. -/
def Cell.pixelWord : Cell → Option Word
  | .color b0 b1 b2 => some (0#8 ++ b2 ++ b1 ++ b0)
  | .unwritten => some 0x80000000#32
  | .unknown => none

/-- Output channel k of a pixel word: byte lane k, bits [8k+7:8k] (20_memory.md R103). -/
def lane (w : Word) (k : Nat) : Byte := w.extractLsb' (8 * k) 8

/-- A pixel word serialised to bytes: byte k of the little-endian form is lane k (20_memory.md R103). -/
def pixelBytes (w : Word) : List Byte := [lane w 0, lane w 1, lane w 2, lane w 3]

/-- The pixel words of a row; word X is column X (30_encoding.md R162). -/
def rowWords (r : Row) : List (Option Word) := r.map Cell.pixelWord

/-- Deliver a row on the row output port (48_commands.md R557, log 15). -/
def deliver (r : Row) (s : State) : State := { s with rowOut := s.rowOut ++ [r] }

end Sys2Proof.Machine
end

