-- ==== Sys2Proof/Machine/Flags.lean ====
section
/-! DEFINITION. The status bits of 10_state.md R66. The block has no flags and no condition codes; no command
writes a status bit as a side effect of another's. -/

namespace Sys2Proof.Machine

/-- Whether a pixel cell holds a color (10_state.md R66). -/
def Cell.isColor : Cell → Bool
  | .color _ _ _ => true
  | .unwritten => false
  | .unknown => false

/-- Whether a pixel cell was written by a DRAW: a color or `Unwritten`, not `Unknown` (10_state.md R63). -/
def Cell.isWritten : Cell → Bool
  | .color _ _ _ => true
  | .unwritten => true
  | .unknown => false

/-- Whether polygon `p` has an open span: `BK[p]` is not none (10_state.md R61, R66). -/
def hasOpenSpan (bk : Space Nat) (p : Nat) : Bool := (Space.get bk p).isSome

/-- The closed spans of a span table, order kept (43_span_assembler.md R306). -/
def closedSpans (st : List Span) : List Span := st.filter (fun s => s.closed)

end Sys2Proof.Machine
end

