-- ==== Sys2Proof/Machine/SpanAssembler.lean ====
section
/-! DEFINITION. The active-edge sweep and the span assembler (42_edge_table.md section 2,
43_span_assembler.md). -/

namespace Sys2Proof.Machine

/-- What the walk of one DRAW reads and writes: ET, ST, BK and the count of free values drawn. -/
structure Sweep where
  et : List Edge
  st : List Span
  bk : Space Nat
  draws : Nat
  deriving DecidableEq, Repr

/-- `OpenSpan(p, ep)` (43_span_assembler.md R304). -/
def openSpan (p : Nat) (ep : Endpoint) (sw : Sweep) : Sweep :=
  { sw with
    st := sw.st ++ [⟨ep, Endpoint.zero, p, false⟩]
    bk := Space.set sw.bk p sw.st.length }

/-- A span closed with `ep` as endpoint 1 and its endpoints ordered: swapped only when the new x is strictly
smaller (43_span_assembler.md R305). -/
def closedWith (ep : Endpoint) (s : Span) : Span :=
  if ep.x.toInt < s.ep0.x.toInt then { s with ep0 := ep, ep1 := s.ep0, closed := true }
  else { s with ep1 := ep, closed := true }

/-- `CloseSpan(k, ep); BK[p] <- none` (43_span_assembler.md R301, R305). -/
def closeSpan (p k : Nat) (ep : Endpoint) (sw : Sweep) : Sweep :=
  { sw with st := sw.st.modify k (closedWith ep), bk := Space.erase sw.bk p }

/-- The endpoint `ep` of polygon `p` opens a span, or closes the open one (43_span_assembler.md R301). -/
def placeEndpoint (p : Nat) (ep : Endpoint) (sw : Sweep) : Sweep :=
  match Space.get sw.bk p with
  | none => openSpan p ep sw
  | some k => closeSpan p k ep sw

/-- `AssembleEdge(e, Y)` (43_span_assembler.md R301, R302). A zero-height edge is discarded before it is
sampled, so the sample is never `NoWrite`. -/
def assembleEdge (L : Interpolation) (y : Nat) (e : Edge) (sw : Sweep) : Sweep :=
  if e.y0 = e.y1 then sw
  else
    match sampleEdge L e y sw.draws with
    | (some ep, k) => placeEndpoint e.poly ep { sw with draws := k }
    | (none, k) => { sw with draws := k }

/-- `SweepEdge(i, Y)`: retire, skip or assemble the edge at index i (42_edge_table.md R256, R257). -/
def sweepEdge (L : Interpolation) (y i : Nat) (sw : Sweep) : Sweep :=
  match sw.et[i]? with
  | none => sw
  | some e =>
    match classify e y with
    | .expired => { sw with et := sw.et.eraseIdx i }
    | .notYet => sw
    | .active => assembleEdge L y e sw

/-- The walk from the tail to the front: indexes i-1 down to 0 (42_edge_table.md R254,
43_span_assembler.md R300). -/
def walk (L : Interpolation) (y : Nat) : Nat → Sweep → Sweep
  | 0, sw => sw
  | i + 1, sw => walk L y i (sweepEdge L y i sw)

/-- `Assemble(Y)` (43_span_assembler.md R300, R306): empty ST and BK, walk, keep the closed spans. -/
def assemble (L : Interpolation) (y : Nat) (et : List Edge) (k : Nat) : Sweep :=
  let sw := walk L y et.length ⟨et, [], [], k⟩
  { sw with st := closedSpans sw.st }

end Sys2Proof.Machine
end

