-- ==== Sys2Proof/Machine/Scanline.lean ====
section
/-! DEFINITION. The meanings of DRAW and READ. -/

namespace Sys2Proof.Machine

/-- `Assemble(Y)` over the state's edge table (48_commands.md R554). -/
def assembled (y : Nat) (s : State) : Sweep :=
  assemble s.params.interpolation y (edgeTableOf s.et s.draws) s.draws

/-- `Resolve(Y)` over what `Assemble(Y)` left (48_commands.md R554). -/
def resolved (y : Nat) (s : State) : Resolved :=
  resolve s.params (assembled y s).st (assembled y s).draws

/-- `Assemble(Y); Resolve(Y)` (48_commands.md R554): the retired edges leave ET, ST and BK hold what the sweeps
left in them (log 9), the working registers are Unknown again (10_state.md R50), and the row replaces slot
Y mod CACHE_LINES (44_depth_resolver.md R359). -/
def drawScanline (y : Nat) (s : State) : State :=
  { s with
    et := .known (assembled y s).et
    st := .known (resolved y s).st
    bk := .known (assembled y s).bk
    work := WorkRegs.unknown
    mem := writeRow s.params s.mem (slotOf s.params y) (resolved y s).row
    draws := (resolved y s).draws }

/-- DRAW Y (48_commands.md R554). -/
def execDraw (y : Nat) (s : State) : Host.Outcome State Fault Refusal :=
  performWhenReady (.draw y) (scanlineCheck s.params y) s (drawScanline y s)

/-- READ Y (48_commands.md R555): the slot's row goes to the row output port; no state of the block
changes. -/
def execRead (y : Nat) (s : State) : Host.Outcome State Fault Refusal :=
  performWhenReady (.read y) (scanlineCheck s.params y) s
    (deliver (readRow s.params s.mem (slotOf s.params y)) s)

end Sys2Proof.Machine
end

