-- ==== Sys2Proof/Machine/Dispatch.lean ====
section
/-! DEFINITION. The dispatch from a command to its meaning (48_commands.md R550). -/

namespace Sys2Proof.Machine

def exec (i : Instr) (s : State) : Host.Outcome State Fault Refusal :=
  match i with
  | .init => Sys2Proof.Machine.execInit s
  | .reset => Sys2Proof.Machine.execReset s
  | .deinit => Sys2Proof.Machine.execDeinit s
  | .submit n => Sys2Proof.Machine.execSubmit n s
  | .draw y => Sys2Proof.Machine.execDraw y s
  | .read y => Sys2Proof.Machine.execRead y s

end Sys2Proof.Machine
end

