-- ==== Sys2Proof/Machine/Sequencer.lean ====
section
/-! DEFINITION. What one step does: it takes the host's next move and performs it (48_commands.md R550, R558). -/

namespace Sys2Proof.Machine

/-- `Step(word)` (48_commands.md R550): a faulted block performs nothing (60_exceptions.md R604); a word that
is no command raises its fault; a command is performed. -/
def performWord (w : Word) (s : State) : Host.Outcome State Fault Refusal :=
  match s.fault with
  | some _ => .next s
  | none =>
    match decode w with
    | .illegal => .next (raiseFault .illegalCommand w s)
    | .reservedField => .next (raiseFault .reservedField w s)
    | .command i => exec i s

/-- One move of the host, already taken from the port. The geometry stage writes whole records inside VB and
PL (20_memory.md R100); a write outside stops the model (log 16). -/
def performMove (h : HostMove) (s : State) : Host.Outcome State Fault Refusal :=
  match h with
  | .command w => performWord w s
  | .writeVertex i v =>
    if i < s.params.maxVertices then .next (writeVertex i v s) else .fault (.noSuchVertexRecord i)
  | .writePolygon p r =>
    if p < s.params.maxPolygons then .next (writePolygon p r s) else .fault (.noSuchPolygonRecord p)
  | .powerOn => .next (powerOn s)

/-- One step: take the oldest move from the port and perform it; with nothing on the port the block waits
(70_reset_and_hazards.md R700, log 12). -/
def advance (s : State) : Host.Outcome State Fault Refusal :=
  match s.port with
  | [] => .next s
  | h :: rest => performMove h { s with port := rest }

/-- Put the moves `hs` at the front of the port, so that the next steps take them first. -/
def queueFirst (hs : List HostMove) (s : State) : State := { s with port := hs ++ s.port }

/-- The host move that delivers an opcode-table word: the word, 32 bits of it (log 19). -/
def tableMove (nbits w : Nat) : HostMove := .command (BitVec.ofNat 32 (w % 2 ^ nbits))

end Sys2Proof.Machine
end

