-- ==== Sys2Proof/Machine/Step.lean ====
section
/-! DEFINITION. The step function, and how the host places a command word where the next step takes it. -/

namespace Sys2Proof.Machine

/-- One step of the machine (48_commands.md R550). -/
def step (s : State) : Host.Outcome State Fault Refusal := advance s

/-- `s` with a command word first on the command port, so that the very next step performs it (log 19). -/
def State.withFetchWord (s : State) (nbits w : Nat) : State := queueFirst [tableMove nbits w] s

end Sys2Proof.Machine
end

