-- ==== Sys2Proof/Machine/TextAssembler.lean ====
section
/-! DEFINITION. The assembler text of the commands (30_encoding.md R157, R158): one line to one command word.
Text is a list of characters. -/

namespace Sys2Proof.Machine

/-- The line less its comment: a `;` begins a comment that runs to the end of the line (30_encoding.md R157). -/
def beforeComment (line : List Char) : List Char := line.takeWhile (fun c => decide (c ≠ ';'))

/-- The line less the blanks at its end (DEDUCED, log 21: the spec's programs put blanks before a comment). -/
def withoutTrailingBlanks (line : List Char) : List Char :=
  line.rdropWhile (fun c => decide (c = ' ') || decide (c = '\t'))

/-- The value of a decimal digit. -/
def decimalDigit (c : Char) : Option Nat :=
  if 48 ≤ c.toNat ∧ c.toNat ≤ 57 then some (c.toNat - 48) else none

/-- The value of a hexadecimal digit, in either case. -/
def hexDigit (c : Char) : Option Nat :=
  if 48 ≤ c.toNat ∧ c.toNat ≤ 57 then some (c.toNat - 48)
  else if 65 ≤ c.toNat ∧ c.toNat ≤ 70 then some (c.toNat - 55)
  else if 97 ≤ c.toNat ∧ c.toNat ≤ 102 then some (c.toNat - 87)
  else none

/-- The number the digits spell after the number `acc`, most significant first. -/
def numeral (digit : Char → Option Nat) (base : Nat) : List Char → Nat → Option Nat
  | [], acc => some acc
  | c :: cs, acc =>
    match digit c with
    | some d => numeral digit base cs (acc * base + d)
    | none => none

/-- An operand: a decimal number, or `0x` followed by hexadecimal digits (30_encoding.md R157). -/
def operandNumber : List Char → Option Nat
  | '0' :: 'x' :: c :: cs => numeral hexDigit 16 (c :: cs) 0
  | c :: cs => numeral decimalDigit 10 (c :: cs) 0
  | [] => none

/-- An operand of value 0 to 65535 (30_encoding.md R157). -/
def operandText (t : List Char) : Option Nat :=
  match operandNumber t with
  | some v => if operandFits v then some v else none
  | none => none

/-- What follows a given beginning of a line. -/
def afterPrefix : List Char → List Char → Option (List Char)
  | [], t => some t
  | c :: cs, d :: t => if c = d then afterPrefix cs t else none
  | _ :: _, [] => none

/-- `SUBMIT` and the one space before its operand. -/
def submitText : List Char := ['S', 'U', 'B', 'M', 'I', 'T', ' ']

/-- `DRAW` and the one space before its operand. -/
def drawText : List Char := ['D', 'R', 'A', 'W', ' ']

/-- `READ` and the one space before its operand. -/
def readText : List Char := ['R', 'E', 'A', 'D', ' ']

/-- `INIT`. -/
def initText : List Char := ['I', 'N', 'I', 'T']

/-- `RESET`. -/
def resetText : List Char := ['R', 'E', 'S', 'E', 'T']

/-- `DEINIT`. -/
def deinitText : List Char := ['D', 'E', 'I', 'N', 'I', 'T']

/-- A command with an operand: its mnemonic, one space and the operand (30_encoding.md R157). -/
def operandCommand (mnemonic : List Char) (build : Nat → Instr) (t : List Char) : Option Instr :=
  match afterPrefix mnemonic t with
  | some rest => (operandText rest).map build
  | none => none

/-- The command a comment-free line writes (30_encoding.md R157). -/
def parseCommand (t : List Char) : Option Instr :=
  if t = initText then some .init
  else if t = resetText then some .reset
  else if t = deinitText then some .deinit
  else
    match operandCommand submitText .submit t with
    | some i => some i
    | none =>
      match operandCommand drawText .draw t with
      | some i => some i
      | none => operandCommand readText .read t

/-- The command a line writes (30_encoding.md R157). A line that writes none, a blank one among them, is no
command (R158; log 21). -/
def parseLine (line : List Char) : Option Instr :=
  parseCommand (withoutTrailingBlanks (beforeComment line))

/-- The words of a command stream, one command a line (30_encoding.md R157, R158). -/
def assembleLines : List (List Char) → Option (List Word)
  | [] => some []
  | line :: lines =>
    match parseLine line, assembleLines lines with
    | some i, some ws => some (encode i :: ws)
    | _, _ => none

/-- The character of a decimal digit. -/
def digitCharacter (d : Nat) : Char := Char.ofNat (48 + d)

/-- The character of a hexadecimal digit, in capitals or not. -/
def hexCharacter (capital : Bool) (d : Nat) : Char :=
  if d < 10 then digitCharacter d else Char.ofNat ((if capital then 55 else 87) + d)

/-- The digits of `n` in a base, most significant first; the number before `n` bounds how many. -/
def digitsOf (character : Nat → Char) (base : Nat) : Nat → Nat → List Char
  | 0, _ => []
  | fuel + 1, n =>
    if n < base then [character n] else digitsOf character base fuel (n / base) ++ [character (n % base)]

/-- A number as an operand in decimal (30_encoding.md R157). -/
def decimalText (n : Nat) : List Char := digitsOf digitCharacter 10 (n + 1) n

/-- A number as an operand in hexadecimal, after `0x` (30_encoding.md R157). -/
def hexText (capital : Bool) (n : Nat) : List Char := '0' :: 'x' :: digitsOf (hexCharacter capital) 16 (n + 1) n

/-- A command in the syntax of 30_encoding.md R157, its operand as `text` writes it. -/
def renderCommand (text : Nat → List Char) : Instr → List Char
  | .init => initText
  | .reset => resetText
  | .deinit => deinitText
  | .submit n => submitText ++ text n
  | .draw y => drawText ++ text y
  | .read y => readText ++ text y

end Sys2Proof.Machine
end

