-- ==== Sys2Proof/Safety.lean ====
section
/-! DEFINITION. What counts as a safe state and a safe run, and the invariants of the machine between steps. -/

namespace Sys2Proof.Machine

/-- A state a run may end in: no fault is recorded (60_exceptions.md R603: a state with FAULT not None is
never a final state of a run). -/
def Acceptable (s : State) : Prop := s.fault = none

/-- `k` steps from `s` that end, unstopped, in an acceptable state. -/
def SafeRun (k : Nat) (s : State) : Prop := ∃ t, Host.Core.run core k s = .next t ∧ Acceptable t

/-- The edge is oriented: y0 is not below y1 (10_state.md R57). -/
def Edge.oriented (e : Edge) : Prop := e.y1.toInt ≤ e.y0.toInt

/-- The list is sorted by 42_edge_table.md R250. -/
def EdgesSorted (l : List Edge) : Prop := l.Pairwise (fun a b => edgeBefore a b = true)

/-- The span is closed and its left endpoint is not right of its right one (10_state.md R58). -/
def Span.wellOrdered (s : Span) : Prop := s.closed = true ∧ s.ep0.x.toInt ≤ s.ep1.x.toInt

/-- An edge table of the block: sorted, oriented, owned by polygons below MAX_POLYGONS, and of at most
MAX_POLYGONS * MAX_POLY_VERTS edges (10_state.md R57, R59). -/
structure EdgeTableOk (p : Params) (l : List Edge) : Prop where
  sorted : EdgesSorted l
  oriented : ∀ e ∈ l, e.oriented
  owned : ∀ e ∈ l, e.poly < p.maxPolygons
  bounded : l.length ≤ p.maxPolygons * Config.maxPolyVerts

/-- ET, ST and BK hold values exactly in READY, with the invariants of 10_state.md R57 to R61, and outside
READY the cache is Unknown too (10_state.md R71). -/
structure TablesFollowLife (s : State) : Prop where
  readyEdges : s.life = .ready → ∃ l, s.et = .known l ∧ EdgeTableOk s.params l
  readySpans : s.life = .ready → ∃ l, s.st = .known l ∧ ∀ sp ∈ l, sp.wellOrdered
  readyBucket : s.life = .ready → ∃ b, s.bk = .known b ∧ Space.rising b = true
  released : s.life ≠ .ready → s.et = .unknown ∧ s.st = .unknown ∧ s.bk = .unknown ∧ s.mem.cache = []

/-- What holds of the machine between any two steps. -/
structure BlockInvariant (s : State) : Prop where
  /-- The parameters meet 00_scope.md R6. -/
  params : s.params.valid = true
  /-- The spaces are in canonical form. -/
  memory : Memory.wf s.params s.mem = true
  /-- A listed row was written by a DRAW, every cell of it (44_depth_resolver.md R358). -/
  written : ∀ e ∈ s.mem.cache, ∀ c ∈ e.2, c.isWritten = true
  /-- The working registers are Unknown between commands (10_state.md R50). -/
  work : s.work = WorkRegs.unknown
  /-- The tables follow the lifecycle (10_state.md R71). -/
  tables : TablesFollowLife s
  /-- Every row delivered has WIDTH cells (30_encoding.md R162). -/
  delivered : ∀ r ∈ s.rowOut, r.length = s.params.width

/-! ## The terms the statements use -/

/-- The state with only its fault record set: what raising a fault leaves of a state that records none
(60_exceptions.md R603). -/
def faulted (code : FaultCode) (w : Word) (s : State) : State := { s with fault := some ⟨code, w⟩ }

/-- The polygon record SUBMIT reads at index q is admitted (10_state.md R55). -/
def polygonAdmitted (s : State) (q : Nat) : Prop :=
  3 ≤ (readPolygon s.mem s.draws q).n ∧ (readPolygon s.mem s.draws q).n ≤ 4 ∧
  ∀ i ∈ (readPolygon s.mem s.draws q).v, i < s.params.maxVertices

/-- The state after power-on, whatever stood before (10_state.md R71, 70_reset_and_hazards.md R700). -/
structure PoweredOn (s : State) : Prop where
  life : s.life = .uninit
  fault : s.fault = none
  edges : s.et = .unknown
  spans : s.st = .unknown
  bucket : s.bk = .unknown
  work : s.work = WorkRegs.unknown
  cache : ∀ k, readRow s.params s.mem k = unknownRow s.params

/-- The depth term of span `s` sampled at column X (45_interpolator.md R402, R421). -/
def spanDepth (L : Interpolation) (X : Nat) (s : Span) : Word :=
  wrap32 (lerp L s.ep0.w.toInt s.ep1.w.toInt (position s.ep0.x.toInt s.ep1.x.toInt (gridPoint X)))

/-- Span `s` is a candidate at column X: it covers the column and is not of zero width
(44_depth_resolver.md R354, R355). -/
def Candidate (X : Nat) (s : Span) : Prop := covers X s = true ∧ s.ep0.x ≠ s.ep1.x

/-- The span table is sorted by 44_depth_resolver.md R350. -/
def SpansSorted (l : List Span) : Prop := l.Pairwise (fun a b => spanBefore a b = true)

/-- The column sweep without the retirement of 44_depth_resolver.md R353: the row and the draws. -/
def sweepWithoutRetiring (L : Interpolation) : Nat → Nat → List Span → Nat → Row × Nat
  | 0, _, _, k => ([], k)
  | n + 1, X, st, k =>
    ((resolveCell L X st k).1 :: (sweepWithoutRetiring L n (X + 1) st (resolveCell L X st k).2).1,
     (sweepWithoutRetiring L n (X + 1) st (resolveCell L X st k).2).2)

/-- DRAWs of the scanlines `ys`, one after another, lead from `s` to `t`. -/
def DrawsLeadTo : List Nat → State → State → Prop
  | [], s, t => t = s
  | y :: ys, s, t => ∃ u, exec (.draw y) s = .next u ∧ DrawsLeadTo ys u t

/-- The row a DRAW of scanline y makes from an edge table, the draws before it being k. -/
def rowFrom (p : Params) (et : List Edge) (y k : Nat) : Resolved :=
  resolve p (assemble p.interpolation y et k).st (assemble p.interpolation y et k).draws

/-- How many edges of polygon p can contribute to a span at scanline y: ACTIVE and not of zero height
(43_span_assembler.md R302). -/
def contributingEdges (p y : Nat) (et : List Edge) : Nat :=
  (et.filter (fun e => decide (classify e y = .active) && decide (e.y0 ≠ e.y1) && decide (e.poly = p))).length

/-- How many spans of polygon p a span table holds. -/
def spansOf (p : Nat) (st : List Span) : Nat := (st.filter (fun s => decide (s.poly = p))).length

/-- BK names exactly the open spans of ST, each under its polygon (10_state.md R61). -/
def BucketNamesOpenSpans (sw : Sweep) : Prop :=
  (∀ (k : Nat) (sp : Span), sw.st[k]? = some sp → sp.closed = false → Space.get sw.bk sp.poly = some k) ∧
  (∀ (p k : Nat), Space.get sw.bk p = some k → ∃ sp, sw.st[k]? = some sp ∧ sp.closed = false ∧ sp.poly = p)

/-- Two states that agree on all but the scratch state: ST, BK and the working registers
(10_state.md R68). -/
def SameButScratch (s t : State) : Prop := t = { s with st := t.st, bk := t.bk, work := t.work }

/-- The state with other geometry input. -/
def withGeometry (vb : Space Vertex) (pl : Space Polygon) (s : State) : State :=
  { s with mem := { s.mem with vb := vb, pl := pl } }

end Sys2Proof.Machine
end

