-- ==== Sys2Proof/Certificates/Slice0/Obligations.lean ====
section
/-! DEFINITION. The statements for the provers. Each docstring names the rule of spec/ it formalises; where a
clause is the model's own choice it names the log entry. -/

open Sys2Proof Sys2Proof.Machine

/-! ## Encoding -/

/-- Words written out from 30_encoding.md R151 and R152 (and the table of 95_test_vectors.md section 2.1)
decode to the commands they stand for. -/
def Obligations.WrittenWordsDecode : Prop :=
  decode 0x10000000#32 = .command .init ∧
  decode 0x20000000#32 = .command .reset ∧
  decode 0x30000000#32 = .command .deinit ∧
  decode 0x40000800#32 = .command (.submit 2048) ∧
  decode 0x500000BF#32 = .command (.draw 191) ∧
  decode 0x6000FFFF#32 = .command (.read 65535) ∧
  decode 0x8000000F#32 = .illegal ∧
  decode 0x60100000#32 = .reservedField ∧
  decode 0x30008000#32 = .reservedField

/-- 30_encoding.md R163, with the fields taken from the word as a number: OPC is the word divided by 2^28, RSV
the next twelve bits, IMM the word modulo 2^16. -/
def Obligations.DecodeFollowsTheFields : Prop :=
  ∀ w : Word,
    (w.toNat / 2 ^ 28 < 1 ∨ 6 < w.toNat / 2 ^ 28 → decode w = .illegal) ∧
    (1 ≤ w.toNat / 2 ^ 28 → w.toNat / 2 ^ 28 ≤ 6 → w.toNat / 2 ^ 16 % 2 ^ 12 ≠ 0 →
      decode w = .reservedField) ∧
    (1 ≤ w.toNat / 2 ^ 28 → w.toNat / 2 ^ 28 ≤ 3 → w.toNat / 2 ^ 16 % 2 ^ 12 = 0 →
      w.toNat % 2 ^ 16 ≠ 0 → decode w = .reservedField) ∧
    (w.toNat / 2 ^ 16 % 2 ^ 12 = 0 → w.toNat % 2 ^ 16 = 0 →
      (w.toNat / 2 ^ 28 = 1 → decode w = .command .init) ∧
      (w.toNat / 2 ^ 28 = 2 → decode w = .command .reset) ∧
      (w.toNat / 2 ^ 28 = 3 → decode w = .command .deinit)) ∧
    (w.toNat / 2 ^ 16 % 2 ^ 12 = 0 →
      (w.toNat / 2 ^ 28 = 4 → decode w = .command (.submit (w.toNat % 2 ^ 16))) ∧
      (w.toNat / 2 ^ 28 = 5 → decode w = .command (.draw (w.toNat % 2 ^ 16))) ∧
      (w.toNat / 2 ^ 28 = 6 → decode w = .command (.read (w.toNat % 2 ^ 16))))

/-- Decoding an encoded well-formed command gives it back, for every command and every operand value
(30_encoding.md R151, R152, R163). -/
def Obligations.DecodeOfEncode : Prop :=
  ∀ i : Instr, i.wellFormed = true → decode (encode i) = .command i

/-- Each command has one word: a word that decodes to a command is that command's encoding, and the command
is well-formed. So the word a fault records (60_exceptions.md R603) is the word that was delivered. -/
def Obligations.EncodeOfDecode : Prop :=
  ∀ (w : Word) (i : Instr), decode w = .command i → i.wellFormed = true ∧ encode i = w

/-- The text of a command, its operand in decimal or after `0x` in hexadecimal of either case, is read back as the
command, also before blanks and a comment; and a stream assembles exactly when every line writes a command, to
those commands' words in order (30_encoding.md R157, R158). The blanks before the comment and both cases of a
hexadecimal digit are the model's reading (DEDUCED, log 21). -/
def Obligations.ParseOfRender : Prop :=
  (∀ (i : Instr) (text : Nat → List Char) (blanks : Nat) (comment : List Char), i.wellFormed = true →
    (text = decimalText ∨ text = hexText true ∨ text = hexText false) →
    parseLine (renderCommand text i) = some i ∧
    parseLine (renderCommand text i ++ List.replicate blanks ' ' ++ ';' :: comment) = some i) ∧
  (∀ (lines : List (List Char)) (ws : List Word), assembleLines lines = some ws ↔
    ∃ is : List Instr, lines.map parseLine = is.map some ∧ ws = is.map encode)

/-! ## The step -/

/-- 48_commands.md R550: a block with no fault recorded performs the command the delivered word decodes to. The
port that delivers it is the model's (log 11, log 19). -/
def Obligations.StepRunsDecodedCommand : Prop :=
  ∀ (s : State) (w : Word) (rest : List HostMove) (i : Instr),
    s.port = .command w :: rest → s.fault = none → decode w = .command i →
    step s = exec i { s with port := rest }

/-- `withFetchWord` places a command word where the very next step performs it (log 19). -/
def Obligations.PlacedWordIsPerformed : Prop :=
  ∀ (s : State) (i : Instr), i.wellFormed = true → s.fault = none →
    step (s.withFetchWord 32 (encode i).toNat) = exec i s ∧
    decodeTableWord 32 (encode i).toNat = some i

/-- 30_encoding.md R154 and R155: a reserved-field word and an illegal word raise their faults, in every LIFE
state, and have no other effect. -/
def Obligations.BadWordsFault : Prop :=
  ∀ (s : State) (w : Word) (rest : List HostMove), s.port = .command w :: rest → s.fault = none →
    (w.toNat / 2 ^ 28 < 1 ∨ 6 < w.toNat / 2 ^ 28 →
      step s = .next (faulted .illegalCommand w { s with port := rest })) ∧
    (1 ≤ w.toNat / 2 ^ 28 → w.toNat / 2 ^ 28 ≤ 6 →
      (w.toNat / 2 ^ 16 % 2 ^ 12 ≠ 0 ∨ (w.toNat / 2 ^ 28 ≤ 3 ∧ w.toNat % 2 ^ 16 ≠ 0)) →
      step s = .next (faulted .reservedField w { s with port := rest }))

/-- A faulted block performs no command, and nothing but power-on clears FAULT (60_exceptions.md section 4). That
the words delivered to a faulted block are taken from the port is the model's (DEDUCED, log 13). -/
def Obligations.FaultedBlockStaysFaulted : Prop :=
  ∀ (s : State) (f : FaultRecord), s.fault = some f →
    (∀ w rest, s.port = .command w :: rest → step s = .next { s with port := rest }) ∧
    (∀ i t, exec i s = .next t → t.fault = some f) ∧
    (∀ t, step s = .next t → (∀ rest, s.port ≠ .powerOn :: rest) → t.fault = some f) ∧
    (∀ t rest, s.port = .powerOn :: rest → step s = .next t → t.fault = none)

/-- 60_exceptions.md R603: a command word that raises a fault records the code and itself, and has no other
effect; the same of a command's meaning. The code numbers are those of the table of 60_exceptions.md R600. -/
def Obligations.FaultsArePrecise : Prop :=
  (∀ (s t : State) (w : Word) (rest : List HostMove) (f : FaultRecord), s.port = .command w :: rest →
    s.fault = none → step s = .next t → t.fault = some f →
    f.word = w ∧ t = faulted f.code w { s with port := rest }) ∧
  (∀ (s t : State) (i : Instr) (f : FaultRecord), s.fault = none → exec i s = .next t → t.fault = some f →
    f.word = encode i ∧ t = faulted f.code (encode i) s) ∧
  FaultCode.illegalCommand.code.toNat = 1 ∧ FaultCode.reservedField.code.toNat = 2 ∧
  FaultCode.notReady.code.toNat = 3 ∧ FaultCode.scanlineRange.code.toNat = 4 ∧
  FaultCode.polygonCount.code.toNat = 5 ∧ FaultCode.polygonShape.code.toNat = 6 ∧
  FaultCode.vertexIndex.code.toNat = 7

/-- The state after power-on, at `State.reset` and at a power-on later in a run; the block then waits, and every
command but INIT raises NOT_READY (10_state.md section 8, 70_reset_and_hazards.md section 1). That a power-on
leaves the port as it is, and a step on an empty port the state, is the model's (DEDUCED, log 18 and log 12). -/
def Obligations.PowerOnState : Prop :=
  PoweredOn State.reset ∧
  (∀ (s : State) (rest : List HostMove), s.port = .powerOn :: rest →
    ∃ t, step s = .next t ∧ PoweredOn t ∧ t.port = rest ∧ t.params = s.params) ∧
  (∀ s : State, s.port = [] → step s = .next s) ∧
  (∀ (s : State) (i : Instr), PoweredOn s → i ≠ .init → exec i s = .next (faulted .notReady (encode i) s)) ∧
  (∀ s : State, PoweredOn s → ∃ t, exec .init s = .next t ∧ t.fault = none ∧ t.life = .ready)

/-- 20_memory.md R101: a vertex or polygon record the geometry stage writes is what SUBMIT then reads, and the
write changes nothing else. A write outside the space stops the model (log 16). -/
def Obligations.GeometryWritesLand : Prop :=
  (∀ (s : State) (i : Nat) (v : Vertex) (rest : List HostMove), s.port = .writeVertex i v :: rest →
    (i < s.params.maxVertices → ∃ t, step s = .next t ∧
      (∀ k, readVertex t.mem k i = v) ∧ (∀ k j, j ≠ i → readVertex t.mem k j = readVertex s.mem k j) ∧
      t = { s with port := rest, mem := { s.mem with vb := t.mem.vb } }) ∧
    (s.params.maxVertices ≤ i → step s = .fault (.noSuchVertexRecord i))) ∧
  (∀ (s : State) (p : Nat) (r : Polygon) (rest : List HostMove), s.port = .writePolygon p r :: rest →
    (p < s.params.maxPolygons → ∃ t, step s = .next t ∧
      (∀ k, readPolygon t.mem k p = r) ∧ (∀ k j, j ≠ p → readPolygon t.mem k j = readPolygon s.mem k j) ∧
      t = { s with port := rest, mem := { s.mem with pl := t.mem.pl } }) ∧
    (s.params.maxPolygons ≤ p → step s = .fault (.noSuchPolygonRecord p)))

/-! ## The lifecycle commands -/

/-- 48_commands.md R551: INIT, from every LIFE state. -/
def Obligations.InitResult : Prop :=
  encode .init = 0x10000000#32 ∧
  ∀ s : State, ∃ t, exec .init s = .next t ∧
    t.life = .ready ∧ t.et = .known [] ∧ t.st = .known [] ∧
    (∃ b, t.bk = .known b ∧ ∀ p, hasOpenSpan b p = false) ∧
    t.work = WorkRegs.unknown ∧ (∀ k, readRow t.params t.mem k = unknownRow t.params) ∧
    t.fault = s.fault ∧ t.params = s.params ∧ t.mem.vb = s.mem.vb ∧ t.mem.pl = s.mem.pl ∧
    t.port = s.port ∧ t.rowOut = s.rowOut

/-- 48_commands.md R552: RESET in READY, its corner case (a DRAW after it makes an all-`Unwritten` row), and its
NOT_READY fault outside READY. -/
def Obligations.ResetResult : Prop :=
  encode .reset = 0x20000000#32 ∧
  (∀ s : State, s.life = .ready → ∃ t, exec .reset s = .next t ∧
    t.life = .ready ∧ t.et = .known [] ∧ t.st = .known [] ∧
    (∃ b, t.bk = .known b ∧ ∀ p, hasOpenSpan b p = false) ∧
    t.work = WorkRegs.unknown ∧ t.mem = s.mem ∧ t.fault = s.fault ∧ t.params = s.params ∧
    t.port = s.port ∧ t.rowOut = s.rowOut ∧
    (∀ y < s.params.screenHeight, ∃ u, exec (.draw y) t = .next u ∧
      readRow u.params u.mem (y % s.params.cacheLines) = List.replicate s.params.width .unwritten)) ∧
  (∀ s : State, s.life ≠ .ready → s.fault = none →
    exec .reset s = .next (faulted .notReady 0x20000000#32 s))

/-- 48_commands.md R556: DEINIT in READY, and its NOT_READY fault outside it; after it every command but INIT
raises NOT_READY, and INIT makes the block usable again. -/
def Obligations.DeinitResult : Prop :=
  encode .deinit = 0x30000000#32 ∧
  (∀ s : State, s.life = .ready → ∃ t, exec .deinit s = .next t ∧
    t.life = .deinit ∧ t.et = .unknown ∧ t.st = .unknown ∧ t.bk = .unknown ∧ t.work = WorkRegs.unknown ∧
    (∀ k, readRow t.params t.mem k = unknownRow t.params) ∧
    t.mem.vb = s.mem.vb ∧ t.mem.pl = s.mem.pl ∧ t.fault = s.fault ∧ t.params = s.params ∧
    t.port = s.port ∧ t.rowOut = s.rowOut ∧
    (s.fault = none → ∀ i, i ≠ .init → exec i t = .next (faulted .notReady (encode i) t)) ∧
    (∃ u, exec .init t = .next u ∧ u.life = .ready)) ∧
  (∀ s : State, s.life ≠ .ready → s.fault = none →
    exec .deinit s = .next (faulted .notReady 0x30000000#32 s))

/-- 10_state.md R52 and 60_exceptions.md R608: what each LIFE state accepts (INIT always, every command in READY,
no other outside it), and the only moves that change it. -/
def Obligations.LifecycleModes : Prop :=
  State.reset.life = .uninit ∧
  (∀ (s : State) (i : Instr), s.life ≠ .ready → i ≠ .init → s.fault = none →
    exec i s = .next (faulted .notReady (encode i) s)) ∧
  (∀ (s t : State) (i : Instr) (f : FaultRecord), s.life = .ready → s.fault = none → exec i s = .next t →
    t.fault = some f → f.code ≠ .notReady) ∧
  (∀ s : State, ∃ t, exec .init s = .next t ∧ t.life = .ready ∧ t.fault = s.fault) ∧
  (∀ s t : State, step s = .next t → t.life ≠ s.life → ∃ rest,
    (∃ w, s.port = .command w :: rest ∧ s.fault = none ∧
      ((decode w = .command .init ∧ t.life = .ready) ∨
       (decode w = .command .deinit ∧ s.life = .ready ∧ t.life = .deinit))) ∨
    (s.port = .powerOn :: rest ∧ t.life = .uninit))

/-! ## SUBMIT -/

/-- 42_edge_table.md R252: SUBMIT of admitted polygons completes, and the edge table is the sorted list of the
edges built, whatever table stood before; a DRAW only takes edges out of the table and never reorders it. -/
def Obligations.SubmitRebuildsTheEdgeTable : Prop :=
  (∀ (s : State) (n : Nat), s.life = .ready → n ≤ s.params.maxPolygons →
    (∀ q < n, polygonAdmitted s q) →
    ∃ t, exec (.submit n) s = .next t ∧
      t.et = .known (sortEdges s.params.edgeTieOrder (buildEdges s.mem s.draws n)) ∧
      t.mem = s.mem ∧ t.life = s.life ∧ t.fault = s.fault ∧ t.st = s.st ∧ t.bk = s.bk ∧ t.work = s.work ∧
      t.params = s.params ∧ t.port = s.port ∧ t.rowOut = s.rowOut) ∧
  (∀ (s t : State) (y : Nat) (l : List Edge), s.et = .known l → exec (.draw y) s = .next t →
    ∃ l', t.et = .known l' ∧ l'.Sublist l)

/-- 60_exceptions.md R601: SUBMIT checks N, then the polygons in increasing index, in each its vertex count and
then its indices, and the first failing check raises its fault with the edge table as it was; DRAW and READ
check Y; no other check faults. -/
def Obligations.OperandChecksFault : Prop :=
  ∀ s : State, s.life = .ready → s.fault = none →
    (∀ n, s.params.maxPolygons < n →
      exec (.submit n) s = .next (faulted .polygonCount (encode (.submit n)) s)) ∧
    (∀ n q, n ≤ s.params.maxPolygons → q < n → (∀ q' < q, polygonAdmitted s q') →
      ((readPolygon s.mem s.draws q).n < 3 ∨ 4 < (readPolygon s.mem s.draws q).n) →
      exec (.submit n) s = .next (faulted .polygonShape (encode (.submit n)) s)) ∧
    (∀ n q, n ≤ s.params.maxPolygons → q < n → (∀ q' < q, polygonAdmitted s q') →
      3 ≤ (readPolygon s.mem s.draws q).n → (readPolygon s.mem s.draws q).n ≤ 4 →
      (∃ i ∈ (readPolygon s.mem s.draws q).v, s.params.maxVertices ≤ i) →
      exec (.submit n) s = .next (faulted .vertexIndex (encode (.submit n)) s)) ∧
    (∀ y, s.params.screenHeight ≤ y →
      exec (.draw y) s = .next (faulted .scanlineRange (encode (.draw y)) s) ∧
      exec (.read y) s = .next (faulted .scanlineRange (encode (.read y)) s)) ∧
    (∀ n t, n ≤ s.params.maxPolygons → (∀ q < n, polygonAdmitted s q) → exec (.submit n) s = .next t →
      t.fault = none) ∧
    (∀ y t, y < s.params.screenHeight → exec (.draw y) s = .next t ∨ exec (.read y) s = .next t →
      t.fault = none)

/-- The frame of SUBMIT, on every state and operand: all but ET and FAULT is unchanged (the draw count is the
model's own, log 5 and log 7), and where FAULT changes nothing else does (60_exceptions.md R603). -/
def Obligations.SubmitFrame : Prop :=
  ∀ (s t : State) (n : Nat), exec (.submit n) s = .next t →
    t = { s with et := t.et, fault := t.fault, draws := t.draws } ∧
    (t.fault ≠ s.fault → t = { s with fault := t.fault })

/-- 41_edge_builder.md R201: the sides of an n-gon, side k from v[k] to v[(k+1) mod n], so that the last joins
v[n-1] back to v[0]; n edges, each with y0 not below y1; and SUBMIT admits n = 3 or 4. 41_edge_builder.md R200:
BuildEdges lists the polygons' sides in increasing polygon index, from the records of PL and VB. -/
def Obligations.PolygonSides : Prop :=
  (∀ (vertex : Nat → Vertex) (p : Nat) (r : Polygon),
    (polygonEdges vertex p r).length = r.n ∧
    (∀ k a b, r.v[k]? = some a → r.v[k + 1]? = some b →
      (polygonEdges vertex p r)[k]? = some (makeEdge p (vertex a) (vertex b))) ∧
    (∀ a b, r.v.getLast? = some a → r.v.head? = some b →
      (polygonEdges vertex p r).getLast? = some (makeEdge p (vertex a) (vertex b))) ∧
    (∀ e ∈ polygonEdges vertex p r, e.y1.toInt ≤ e.y0.toInt) ∧
    (shapeAdmitted r = true ↔ r.n = 3 ∨ r.n = 4)) ∧
  (∀ (m : Memory) (k n : Nat), buildEdges m k 0 = [] ∧
    buildEdges m k (n + 1) = buildEdges m k n ++ polygonEdges (readVertex m k) n (readPolygon m k n))

/-- 41_edge_builder.md R202 and R204: the start of an edge is the vertex with the larger y, the first of the
side on equal y; every attribute is copied, the color expanded; the edge carries its polygon's index. -/
def Obligations.EdgesAreOriented : Prop :=
  ∀ (p : Nat) (a b : Vertex),
    (b.y.toInt ≤ a.y.toInt → makeEdge p a b =
      ⟨a.y, ⟨a.x, a.w, expand a.color, a.s, a.t⟩, b.y, ⟨b.x, b.w, expand b.color, b.s, b.t⟩, p⟩) ∧
    (a.y.toInt < b.y.toInt → makeEdge p a b =
      ⟨b.y, ⟨b.x, b.w, expand b.color, b.s, b.t⟩, a.y, ⟨a.x, a.w, expand a.color, a.s, a.t⟩, p⟩) ∧
    (makeEdge p a b).oriented

/-- The count law (41_edge_builder.md, "Count law"): the edge table SUBMIT N leaves has one edge per polygon
side, each oriented and owned by a polygon below N. -/
def Obligations.SubmitEdgeCount : Prop :=
  ∀ (s t : State) (n : Nat), s.life = .ready → n ≤ s.params.maxPolygons → (∀ q < n, polygonAdmitted s q) →
    exec (.submit n) s = .next t →
    ∃ l, t.et = .known l ∧
      l.length = ((List.range n).map (fun q => (readPolygon s.mem s.draws q).n)).sum ∧
      ∀ e ∈ l, e.oriented ∧ e.poly < n

/-- 42_edge_table.md R250: SortEdges gives a permutation of its list, sorted descending by (y0, y1) as signed
numbers, whatever EDGE_TIE_ORDER is (00_scope.md R6: a permutation within each run of equal keys). -/
def Obligations.EdgeSort : Prop :=
  ∀ (order : TieOrder) (l : List Edge),
    (sortEdges order l).Perm l ∧
    (sortEdges order l).Pairwise (fun a b =>
      b.y0.toInt < a.y0.toInt ∨ (a.y0.toInt = b.y0.toInt ∧ b.y1.toInt ≤ a.y1.toInt))

/-- With the reference tie orders, which State.reset has (log 3, log 4), both sorts are stable: the edges of one
key keep their construction order, the spans of one key their creation order. -/
def Obligations.SortsAreStable : Prop :=
  State.reset.params.edgeTieOrder = .stable ∧ State.reset.params.spanTieOrder = .stable ∧
  (∀ (l : List Edge) (y0 y1 : Word),
    (sortEdges .stable l).filter (fun e => decide (e.y0 = y0) && decide (e.y1 = y1)) =
      l.filter (fun e => decide (e.y0 = y0) && decide (e.y1 = y1))) ∧
  (∀ (l : List Span) (x w : Word),
    (sortSpans .stable l).filter (fun s => decide (s.ep0.x = x) && decide (s.ep0.w = w)) =
      l.filter (fun s => decide (s.ep0.x = x) && decide (s.ep0.w = w)))

/-- Re-sorting the edge table by the stable sort is a no-op, whatever tie order it was built with, and so is sorting
it after retirement (42_edge_table.md, the sorted invariant). -/
def Obligations.ResortingIsNoOp : Prop :=
  ∀ (order : TieOrder) (l : List Edge), sortEdges .stable (sortEdges order l) = sortEdges order l ∧
    ∀ keep : Edge → Bool,
      sortEdges .stable ((sortEdges order l).filter keep) = (sortEdges order l).filter keep

/-! ## DRAW: edges and spans -/

/-- 42_edge_table.md R255: the three classes, by the integer rows of the edge's ends; an oriented edge is
never both expired and not yet active. -/
def Obligations.Classification : Prop :=
  ∀ (e : Edge) (y : Nat),
    (classify e y = .expired ↔ (y : Int) < e.y1.toInt / 4096) ∧
    (classify e y = .notYet ↔ e.y1.toInt / 4096 ≤ (y : Int) ∧ e.y0.toInt / 4096 < (y : Int)) ∧
    (classify e y = .active ↔ e.y1.toInt / 4096 ≤ (y : Int) ∧ (y : Int) ≤ e.y0.toInt / 4096) ∧
    (e.oriented → (y : Int) < e.y1.toInt / 4096 → ¬ e.y0.toInt / 4096 < (y : Int))

/-- 42_edge_table.md R254 and R256 with their consequence R257, and 43_span_assembler.md R300 and R306: the walk
removes the expired edges, wherever they stand, keeps every other edge, and keeps their order; it assembles the
ACTIVE edges at the scanline drawn, from the tail of the table to its front, from an empty span table and bucket;
and of the spans it leaves, the closed ones are kept, in order. -/
def Obligations.WalkRetiresExactlyTheExpired : Prop :=
  ∀ (L : Interpolation) (y : Nat) (et : List Edge) (k : Nat) (sw : Sweep),
    sw = (et.filter (fun e => decide (classify e y = .active))).foldr (assembleEdge L y) ⟨[], [], [], k⟩ →
    (assemble L y et k).et = et.filter (fun e => decide (classify e y ≠ .expired)) ∧
    (assemble L y et k).st = sw.st.filter (fun sp => sp.closed) ∧
    (assemble L y et k).bk = sw.bk ∧ (assemble L y et k).draws = sw.draws

/-- 43_span_assembler.md R302: a zero-height edge, when ACTIVE, neither opens nor closes a span and leaves BK
unchanged; an edge of one row with y0 above y1 is sampled. The sample is that of 45_interpolator.md R420: the
edge's ends at y0 and y1, at position Y << 12. -/
def Obligations.ZeroHeightEdgesAreDiscarded : Prop :=
  ∀ (L : Interpolation) (y : Nat) (e : Edge) (sw : Sweep),
    (e.y0 = e.y1 → assembleEdge L y e sw = sw) ∧
    (e.y0 ≠ e.y1 → ∃ ep k,
      interp L e.end0 e.end1 e.y0.toInt e.y1.toInt ((y : Int) * 4096) sw.draws = (some ep, k) ∧
      assembleEdge L y e sw = placeEndpoint e.poly ep { sw with draws := k })

/-- 43_span_assembler.md R304 and R305: an endpoint of a polygon with no open span opens one, at the end of ST,
with ZERO as endpoint 1, and BK names it; an endpoint of a polygon with an open span closes that one, the left
endpoint first, and BK forgets it. -/
def Obligations.OpenAndCloseSpan : Prop :=
  ∀ (p : Nat) (ep : Endpoint) (sw : Sweep),
    (Space.get sw.bk p = none →
      (placeEndpoint p ep sw).st = sw.st ++ [⟨ep, Endpoint.zero, p, false⟩] ∧
      Space.get (placeEndpoint p ep sw).bk p = some sw.st.length) ∧
    (∀ k a, Space.get sw.bk p = some k → sw.st[k]? = some a →
      Space.get (placeEndpoint p ep sw).bk p = none ∧
      (placeEndpoint p ep sw).st.length = sw.st.length ∧
      (∀ j, j ≠ k → (placeEndpoint p ep sw).st[j]? = sw.st[j]?) ∧
      (ep.x.toInt < a.ep0.x.toInt → (placeEndpoint p ep sw).st[k]? = some ⟨ep, a.ep0, a.poly, true⟩) ∧
      (a.ep0.x.toInt ≤ ep.x.toInt → (placeEndpoint p ep sw).st[k]? = some ⟨a.ep0, ep, a.poly, true⟩)) ∧
    (∀ q, q ≠ p → Space.get (placeEndpoint p ep sw).bk q = Space.get sw.bk q)

/-- Every step of the walk keeps BK naming exactly the open spans, so that each polygon has at most one open
span at every moment (10_state.md R61, 43_span_assembler.md section on the properties of ST). -/
def Obligations.BucketNamesOpenSpansThroughout : Prop :=
  (∀ et k, BucketNamesOpenSpans ⟨et, [], [], k⟩) ∧
  (∀ (L : Interpolation) (y i : Nat) (sw : Sweep), BucketNamesOpenSpans sw → BucketNamesOpenSpans (sweepEdge L y i sw))

/-- 43_span_assembler.md R306 and R309: the edges of a polygon that contribute at a scanline pair off and an odd last
one is dropped, so the polygon has half as many spans as contributing edges; in particular exactly one for two.
Which edges pair, the order of the walk decides (`Obligations.WalkRetiresExactlyTheExpired`). -/
def Obligations.SpansAreHalfTheContributingEdges : Prop :=
  ∀ (L : Interpolation) (y : Nat) (et : List Edge) (k p : Nat),
    spansOf p (assemble L y et k).st = contributingEdges p y et / 2

/-- Every span the assembler leaves is closed and has its left endpoint first (43_span_assembler.md, the
properties of ST after Assemble; 10_state.md R58). -/
def Obligations.AssembledSpansAreWellOrdered : Prop :=
  ∀ (L : Interpolation) (y : Nat) (et : List Edge) (k : Nat), ∀ sp ∈ (assemble L y et k).st, sp.wellOrdered

/-! ## DRAW: columns -/

/-- 44_depth_resolver.md R350: SortSpans gives a permutation of its list, sorted descending by
(ep[0].x, ep[0].w) as signed numbers, whatever SPAN_TIE_ORDER is (00_scope.md R6: a permutation within each run of
equal keys). -/
def Obligations.SpanSort : Prop :=
  ∀ (order : TieOrder) (l : List Span),
    (sortSpans order l).Perm l ∧
    (sortSpans order l).Pairwise (fun a b =>
      b.ep0.x.toInt < a.ep0.x.toInt ∨ (a.ep0.x.toInt = b.ep0.x.toInt ∧ b.ep0.w.toInt ≤ a.ep0.w.toInt))

/-- 44_depth_resolver.md R354: a span covers the columns from its left end's to its right end's, both among them,
at integer column scale (00_scope.md R12), and with some width is a candidate at them. 44_depth_resolver.md R355
and R356: in a sorted span table Pick finds the candidate with the numerically greatest depth term, the first
examined from the tail among equals, and none exactly when no span is a candidate. -/
def Obligations.PickFindsTheDeepestCandidate : Prop :=
  (∀ (X : Nat) (sp : Span), Candidate X sp ↔
    sp.ep0.x.toInt / 4096 ≤ (X : Int) ∧ (X : Int) ≤ sp.ep1.x.toInt / 4096 ∧ sp.ep0.x ≠ sp.ep1.x) ∧
  ∀ (L : Interpolation) (X : Nat) (st : List Span) (k : Nat), SpansSorted st →
    ((pick L X st k).1 = none ↔ ∀ sp ∈ st, ¬ Candidate X sp) ∧
    (∀ b w, (pick L X st k).1 = some (b, w) → ∃ sp, st[b]? = some sp ∧ Candidate X sp ∧
      w = spanDepth L X sp ∧
      ∀ (j : Nat) (sp' : Span), st[j]? = some sp' → Candidate X sp' →
        (spanDepth L X sp').toInt ≤ w.toInt ∧ (b < j → (spanDepth L X sp').toInt < w.toInt))

/-- 44_depth_resolver.md R357 and R358: the cell of a column is the contracted color of the winner's sample,
or `Unwritten` where no span is a candidate. The sample is that of 45_interpolator.md R421: the span's ends at
ep[0].x and ep[1].x, at position X << 12. -/
def Obligations.ColumnCell : Prop :=
  ∀ (L : Interpolation) (X : Nat) (st : List Span) (k : Nat), SpansSorted st →
    ((∀ sp ∈ st, ¬ Candidate X sp) → (resolveCell L X st k).1 = .unwritten) ∧
    ((∃ sp ∈ st, Candidate X sp) → ∃ b w sp win k', (pick L X st k).1 = some (b, w) ∧ st[b]? = some sp ∧
      interp L sp.ep0 sp.ep1 sp.ep0.x.toInt sp.ep1.x.toInt ((X : Int) * 4096) (pick L X st k).2 =
        (some win, k') ∧
      resolveCell L X st k = (contract win.c, k'))

/-- The row does not depend on the retirement of spans (44_depth_resolver.md, the derived property of its
section 3): the sweep without RetireSpans gives the same row and draws. -/
def Obligations.RetirementOfSpansDoesNotShow : Prop :=
  ∀ (L : Interpolation) (n X : Nat) (st : List Span) (k : Nat), SpansSorted st → (∀ sp ∈ st, sp.wellOrdered) →
    (resolveFrom L n X st k).row = (sweepWithoutRetiring L n X st k).1 ∧
    (resolveFrom L n X st k).draws = (sweepWithoutRetiring L n X st k).2

/-- 44_depth_resolver.md R358: every column of the row is written, with a color or with `Unwritten`; a column with
no candidate, so no winner, gets `Unwritten`; and column X holds the cell of X in the whole sorted table of closed,
well-ordered spans (the one `Obligations.ColumnCell` describes), the draws being those of the columns before it. -/
def Obligations.EveryColumnIsWritten : Prop :=
  ∀ (p : Params) (st : List Span) (k : Nat),
    (resolve p st k).row.length = p.width ∧
    (∀ c ∈ (resolve p st k).row, c.isWritten = true) ∧
    (∀ X < p.width, (∀ sp ∈ st, ¬ Candidate X sp) → (resolve p st k).row[X]? = some .unwritten) ∧
    ((∀ sp ∈ st, sp.wellOrdered) → ∀ X < p.width, (resolve p st k).row[X]? =
      some (resolveCell p.interpolation X (sortSpans p.spanTieOrder st)
        (resolveFrom p.interpolation X 0 (sortSpans p.spanTieOrder st) k).draws).1)

/-! ## DRAW and READ -/

/-- 48_commands.md R554: DRAW in READY below SCREEN_HEIGHT completes: the expired edges leave ET, the row goes
to slot Y mod CACHE_LINES (44_depth_resolver.md R359) and no other slot changes; with an empty edge table the
row is all `Unwritten`. -/
def Obligations.DrawResult : Prop :=
  ∀ (s : State) (y : Nat), s.life = .ready → y < s.params.screenHeight →
    ∃ t, exec (.draw y) s = .next t ∧ t.fault = s.fault ∧ t.work = WorkRegs.unknown ∧
      t.et = .known ((edgeTableOf s.et s.draws).filter (fun e => decide (classify e y ≠ .expired))) ∧
      readRow t.params t.mem (y % s.params.cacheLines) =
        (rowFrom s.params (edgeTableOf s.et s.draws) y s.draws).row ∧
      (∀ k, k ≠ y % s.params.cacheLines → readRow t.params t.mem k = readRow s.params s.mem k) ∧
      (s.et = .known [] →
        readRow t.params t.mem (y % s.params.cacheLines) = List.replicate s.params.width .unwritten)

/-- The frame of DRAW, on every state and operand: LIFE, the parameters, both ports, VB and PL, the working
registers of a state between commands and every slot but Y mod CACHE_LINES are unchanged, and where FAULT
changes nothing else does. -/
def Obligations.DrawFrame : Prop :=
  ∀ (s t : State) (y : Nat), exec (.draw y) s = .next t →
    t.life = s.life ∧ t.params = s.params ∧ t.port = s.port ∧ t.rowOut = s.rowOut ∧
    t.mem.vb = s.mem.vb ∧ t.mem.pl = s.mem.pl ∧
    (s.work = WorkRegs.unknown → t.work = s.work) ∧
    (∀ k, k ≠ y % s.params.cacheLines → readRow t.params t.mem k = readRow s.params s.mem k) ∧
    (t.fault ≠ s.fault → t = { s with fault := t.fault })

/-- READ in READY below SCREEN_HEIGHT delivers the row its slot holds and changes no state of the block; outside
READY and above the screen it raises its faults (48_commands.md section 2). That the rows delivered are kept in
order is the model's (DESIGN CHOICE, log 15). -/
def Obligations.ReadResult : Prop :=
  (∀ y : Nat, y < 65536 → (encode (.read y)).toNat = 0x60000000 + y) ∧
  (∀ (s : State) (y : Nat), s.life = .ready → y < s.params.screenHeight →
    exec (.read y) s =
      .next { s with rowOut := s.rowOut ++ [readRow s.params s.mem (y % s.params.cacheLines)] }) ∧
  (∀ (s : State) (y : Nat), s.life ≠ .ready → s.fault = none →
    exec (.read y) s = .next (faulted .notReady (encode (.read y)) s)) ∧
  (∀ (s : State) (y : Nat), s.life = .ready → s.params.screenHeight ≤ y → s.fault = none →
    exec (.read y) s = .next (faulted .scanlineRange (encode (.read y)) s))

/-- The overwrite law (47_scanline_cache.md R500, R501, R502): right after a DRAW of scanline y, a READ of any
scanline that shares its slot delivers the row that DRAW made, and a READ of any other delivers what its slot held
before; in particular y and y + CACHE_LINES share a slot. That a row delivered is added after those delivered
before is the model's (DESIGN CHOICE, log 15). -/
def Obligations.CacheOverwrite : Prop :=
  ∀ (s t u : State) (y y' : Nat), s.life = .ready → s.fault = none →
    y < s.params.screenHeight → y' < s.params.screenHeight →
    exec (.draw y) s = .next t → exec (.read y') t = .next u →
    (y' % s.params.cacheLines = y % s.params.cacheLines →
      u.rowOut = s.rowOut ++ [(rowFrom s.params (edgeTableOf s.et s.draws) y s.draws).row]) ∧
    (y' % s.params.cacheLines ≠ y % s.params.cacheLines →
      u.rowOut = s.rowOut ++ [readRow s.params s.mem (y' % s.params.cacheLines)]) ∧
    (y + s.params.cacheLines) % s.params.cacheLines = y % s.params.cacheLines

/-- The draw-order rule (70_reset_and_hazards.md R704, 42_edge_table.md section 3): retirement at scanline y
changes no row of a scanline at or below y in the inverted coordinate, so scanlines drawn in non-increasing Y
all give the full table's rows. -/
def Obligations.LowerScanlinesKeepTheirRows : Prop :=
  ∀ (p : Params) (et : List Edge) (y y' k j : Nat), y' ≤ y →
    rowFrom p (assemble p.interpolation y et j).et y' k = rowFrom p et y' k

/-- Repeated drawing (70_reset_and_hazards.md section 3): DRAW y, then any number of DRAWs (none among them) at
scanlines not below y, then DRAW y again leaves in the slot of y the row the first DRAW made and retires nothing
more, where no free value was drawn before the last (45_interpolator.md R408 leaves those rows open). -/
def Obligations.RepeatedDrawGivesTheSameRow : Prop :=
  ∀ (s t u v : State) (y : Nat) (between : List Nat), s.life = .ready → s.fault = none →
    y < s.params.screenHeight → (∀ y' ∈ between, y ≤ y' ∧ y' < s.params.screenHeight) →
    exec (.draw y) s = .next t → DrawsLeadTo between t u → exec (.draw y) u = .next v →
    u.draws = s.draws →
    readRow v.params v.mem (y % s.params.cacheLines) = readRow t.params t.mem (y % s.params.cacheLines) ∧
    v.et = u.et

/-! ## The interpolator -/

/-- 45_interpolator.md R401: t is clamped to [0, 1], so a sample position at or outside an end gives that end's
values: all of them where the end's depth is not 0, its x and w in any case. -/
def Obligations.ClampLaw : Prop :=
  ∀ (L : Interpolation) (A B : Endpoint) (ca cb p : Int) (k : Nat), ca ≠ cb →
    (0 ≤ fraction L.tFracBits (position ca cb p) ∧
      fraction L.tFracBits (position ca cb p) ≤ 2 ^ L.tFracBits) ∧
    ((ca < cb ∧ p ≤ ca) ∨ (cb < ca ∧ ca ≤ p) →
      (∃ e, (interp L A B ca cb p k).1 = some e ∧ e.x = A.x ∧ e.w = A.w) ∧
      (A.w ≠ 0 → interp L A B ca cb p k = (some A, k))) ∧
    ((ca < cb ∧ cb ≤ p) ∨ (cb < ca ∧ p ≤ cb) →
      (∃ e, (interp L A B ca cb p k).1 = some e ∧ e.x = B.x ∧ e.w = B.w) ∧
      (B.w ≠ 0 → interp L A B ca cb p k = (some B, k)))

/-- 45_interpolator.md R404: a zero-length range, and no other, gives NoWrite; it draws no free value. -/
def Obligations.DegenerateLaw : Prop :=
  ∀ (L : Interpolation) (A B : Endpoint) (ca cb p : Int) (k : Nat),
    ((interp L A B ca cb p k).1 = none ↔ ca = cb) ∧ (ca = cb → interp L A B ca cb p k = (none, k))

/-- 45_interpolator.md R405: with equal depths that are not 0 every perspective-corrected attribute is the
plain linear interpolation, with the same rounding as the depth's. -/
def Obligations.EqualDepthLaw : Prop :=
  ∀ (L : Interpolation) (A B : Endpoint) (ca cb p : Int) (k : Nat), ca ≠ cb → A.w = B.w → A.w ≠ 0 →
    ∃ e, interp L A B ca cb p k = (some e, k) ∧
      e.c.ch0 = wrap32 (lerp L A.c.ch0.toInt B.c.ch0.toInt (position ca cb p)) ∧
      e.c.ch1 = wrap32 (lerp L A.c.ch1.toInt B.c.ch1.toInt (position ca cb p)) ∧
      e.c.ch2 = wrap32 (lerp L A.c.ch2.toInt B.c.ch2.toInt (position ca cb p)) ∧
      e.s = wrap32 (lerp L A.s.toInt B.s.toInt (position ca cb p)) ∧
      e.t = wrap32 (lerp L A.t.toInt B.t.toInt (position ca cb p))

/-- Where the divisor is 0 each of the five attributes is its own free value (45_interpolator.md R408, log 5), x and
w are still the linear interpolations, and the sample still counts; whatever the arithmetic LERP (log 2). -/
def Obligations.ZeroDivisorLaw : Prop :=
  ∀ (L : Interpolation) (A B : Endpoint) (ca cb p : Int) (k : Nat), ca ≠ cb →
    zeroDivisor L A.w.toInt B.w.toInt (position ca cb p) = true →
    ∃ e, interp L A B ca cb p k = (some e, k + 5) ∧
      e.x = wrap32 (lerp L A.x.toInt B.x.toInt (position ca cb p)) ∧
      e.w = wrap32 (lerp L A.w.toInt B.w.toInt (position ca cb p)) ∧
      e.c = ⟨Config.freeAttribute k, Config.freeAttribute (k + 1), Config.freeAttribute (k + 2)⟩ ∧
      e.s = Config.freeAttribute (k + 3) ∧ e.t = Config.freeAttribute (k + 4)

/-- The sample at every position with ca not cb, in the reference arithmetic (45_interpolator.md R410, with R402,
R403 and R407; its rounding is log 2's): t is the floored fraction of the clamped offset, x and w the floored
weighted means, and where D = A.w*u + B.w*t is not 0 each attribute is floor(N / D) with
N = A.f*A.w*u + B.f*B.w*t and draws nothing; where D is 0 five free values are drawn. In any other arithmetic x, w
and, where none is drawn, the attributes are the exact values, rounded down, up to its slacks (log 2). -/
def Obligations.InterpolationArithmetic : Prop :=
  (∀ (T : Nat) (A B : Endpoint) (ca cb p off t u D : Int) (k : Nat), ca ≠ cb →
    off = (if ca < cb then min (max (p - ca) 0) (cb - ca) else min (max (p - ca) (cb - ca)) 0) →
    t = Int.fdiv (off * 2 ^ T) (cb - ca) → u = 2 ^ T - t → D = A.w.toInt * u + B.w.toInt * t →
    ∃ e, (interp ⟨T, .reference⟩ A B ca cb p k).1 = some e ∧
      e.x = wrap32 (Int.fdiv (A.x.toInt * u + B.x.toInt * t) (2 ^ T)) ∧
      e.w = wrap32 (Int.fdiv (A.w.toInt * u + B.w.toInt * t) (2 ^ T)) ∧
      (D ≠ 0 → (interp ⟨T, .reference⟩ A B ca cb p k).2 = k ∧
        ∀ f ∈ [fun d : Endpoint => d.c.ch0, fun d => d.c.ch1, fun d => d.c.ch2, fun d => d.s, fun d => d.t],
          f e = wrap32 (Int.fdiv ((f A).toInt * A.w.toInt * u + (f B).toInt * B.w.toInt * t) D)) ∧
      (D = 0 → (interp ⟨T, .reference⟩ A B ca cb p k).2 = k + 5)) ∧
  (∀ (T j s s' : Nat) (A B : Endpoint) (ca cb p off u D : Int) (k : Nat), ca ≠ cb →
    off = (if ca < cb then min (max (p - ca) 0) (cb - ca) else min (max (p - ca) (cb - ca)) 0) →
    u = cb - ca - off → D = A.w.toInt * u + B.w.toInt * off →
    ∃ e x w, (interp ⟨T, .other j s s'⟩ A B ca cb p k).1 = some e ∧ e.x = wrap32 x ∧ e.w = wrap32 w ∧
      |x - Int.fdiv (A.x.toInt * u + B.x.toInt * off) (cb - ca)| ≤ s ∧
      |w - Int.fdiv D (cb - ca)| ≤ s ∧
      (D ≠ 0 → (interp ⟨T, .other j s s'⟩ A B ca cb p k).2 = k →
        ∀ f ∈ [fun d : Endpoint => d.c.ch0, fun d => d.c.ch1, fun d => d.c.ch2, fun d => d.s, fun d => d.t],
          ∃ v, f e = wrap32 v ∧
            |v - Int.fdiv ((f A).toInt * A.w.toInt * u + (f B).toInt * B.w.toInt * off) D| ≤ max s s'))

/-- The sample lies between the ends (45_interpolator.md section 1, on wrapping): x and w always, and every
perspective-corrected attribute where both depths have the same sign, so that no wrap shows. -/
def Obligations.SamplesLieBetweenTheEnds : Prop :=
  ∀ (L : Interpolation) (A B e : Endpoint) (ca cb p : Int) (k k' : Nat), interp L A B ca cb p k = (some e, k') →
    (min A.x.toInt B.x.toInt ≤ e.x.toInt ∧ e.x.toInt ≤ max A.x.toInt B.x.toInt) ∧
    (min A.w.toInt B.w.toInt ≤ e.w.toInt ∧ e.w.toInt ≤ max A.w.toInt B.w.toInt) ∧
    ((0 < A.w.toInt ∧ 0 < B.w.toInt) ∨ (A.w.toInt < 0 ∧ B.w.toInt < 0) →
      ∀ f ∈ [fun d : Endpoint => d.c.ch0, fun d => d.c.ch1, fun d => d.c.ch2, fun d => d.s, fun d => d.t],
        min (f A).toInt (f B).toInt ≤ (f e).toInt ∧ (f e).toInt ≤ max (f A).toInt (f B).toInt)

/-! ## Codec and pixels -/

/-- 46_color_codec.md R451 and R452: expansion gives 2 raw + 1, an odd value from 1 to 63; contraction keeps
bits 5 to 1 of the 32-bit value, in bits 7 to 3. 46_color_codec.md R453: output channel k is the contraction of
internal channel k, and lane k of the pixel word holds it. -/
def Obligations.CodecFormulas : Prop :=
  (∀ (color : BitVec 16) (k : Nat),
    (expandChannel (rawChannel color k)).toNat = 2 * (color.toNat / 2 ^ (5 * k) % 32) + 1) ∧
  (∀ c : Word, (contractChannel c).toNat = c.toNat / 2 % 32 * 8) ∧
  (∀ color : BitVec 16, expand color =
    ⟨expandChannel (rawChannel color 0), expandChannel (rawChannel color 1), expandChannel (rawChannel color 2)⟩) ∧
  (∀ c : Channels, contract c = .color (contractChannel c.ch0) (contractChannel c.ch1) (contractChannel c.ch2) ∧
    ∃ w, (contract c).pixelWord = some w ∧ w.toNat = (contractChannel c.ch0).toNat +
      2 ^ 8 * (contractChannel c.ch1).toNat + 2 ^ 16 * (contractChannel c.ch2).toNat)

/-- The round trip of a channel (46_color_codec.md section "Round-trip law"): the output byte is the raw value
times 8. -/
def Obligations.CodecRoundTrip : Prop :=
  ∀ raw : BitVec 5, (contractChannel (expandChannel raw)).toNat = raw.toNat * 8

/-- 30_encoding.md R161 and 20_memory.md R103: the pixel word of a color has channel k in lane k and bit 31
clear, a contracted color has the low three bits of each lane clear, `Unwritten` is 0x80000000 and `Unknown` has
no word; serialised, byte k is lane k. -/
def Obligations.PixelWords : Prop :=
  (∀ b0 b1 b2 : Byte, ∃ w, (Cell.color b0 b1 b2).pixelWord = some w ∧
    w.toNat = b0.toNat + 2 ^ 8 * b1.toNat + 2 ^ 16 * b2.toNat ∧ pixelBytes w = [b0, b1, b2, 0]) ∧
  Cell.unwritten.pixelWord = some 0x80000000#32 ∧ Cell.unknown.pixelWord = none ∧
  pixelBytes 0x80000000#32 = [0, 0, 0, 0x80] ∧
  (∀ c : Channels, ∃ w, (contract c).pixelWord = some w ∧ w &&& 0xFF070707#32 = 0)

/-! ## Rules of the whole machine -/

/-- 20_memory.md R113 (47_scanline_cache.md R504): a slot changes only when a DRAW writes it, or INIT, DEINIT or
power-on makes it Unknown. -/
def Obligations.OnlyTheseMovesChangeTheCache : Prop :=
  ∀ (s t : State) (k : Nat), step s = .next t → readRow t.params t.mem k ≠ readRow s.params s.mem k →
    (∃ rest, s.port = .powerOn :: rest ∧ readRow t.params t.mem k = unknownRow t.params) ∨
    (∃ rest w, s.port = .command w :: rest ∧ s.fault = none ∧
      ((decode w = .command .init ∧ readRow t.params t.mem k = unknownRow t.params) ∨
       (decode w = .command .deinit ∧ s.life = .ready ∧ readRow t.params t.mem k = unknownRow t.params) ∨
       (∃ y, decode w = .command (.draw y) ∧ s.life = .ready ∧ y < s.params.screenHeight ∧
         k = y % s.params.cacheLines)))

/-- 20_memory.md section 1: no command writes VB or PL; only the geometry stage does, and power-on ends what
the block may rely on (log 18). The parameters never change. -/
def Obligations.OnlyTheGeometryStageWritesGeometry : Prop :=
  (∀ (s t : State) (i : Instr), exec i s = .next t → t.mem.vb = s.mem.vb ∧ t.mem.pl = s.mem.pl) ∧
  (∀ s t : State, step s = .next t → t.params = s.params) ∧
  (∀ s t : State, step s = .next t → t.mem.vb ≠ s.mem.vb →
    (∃ rest i v, s.port = .writeVertex i v :: rest) ∨ ∃ rest, s.port = .powerOn :: rest) ∧
  (∀ s t : State, step s = .next t → t.mem.pl ≠ s.mem.pl →
    (∃ rest p r, s.port = .writePolygon p r :: rest) ∨ ∃ rest, s.port = .powerOn :: rest)

/-- The outputs (10_state.md section 7, 48_commands.md section 3): only a READ delivers a row, and a row delivered
is never changed by a later step. That rows are kept for good and in order is the model's (DESIGN CHOICE, log 15),
across a power-on too (DEDUCED, log 18). -/
def Obligations.OnlyReadDelivers : Prop :=
  ∀ s t : State, step s = .next t →
    t.rowOut = s.rowOut ∨
    ∃ rest w y, s.port = .command w :: rest ∧ s.fault = none ∧ s.life = .ready ∧
      decode w = .command (.read y) ∧ y < s.params.screenHeight ∧
      t.rowOut = s.rowOut ++ [readRow s.params s.mem (y % s.params.cacheLines)]

/-- The geometry input is seen by SUBMIT alone (20_memory.md section 7): every other command does the same
whatever VB and PL hold. -/
def Obligations.GeometryIsSeenBySubmitAlone : Prop :=
  ∀ (s t : State) (i : Instr) (vb : Space Vertex) (pl : Space Polygon), (∀ n, i ≠ .submit n) →
    exec i s = .next t → exec i (withGeometry vb pl s) = .next (withGeometry vb pl t)

/-- The scratch state is not observable (10_state.md section 7): commands on states that differ in ST, BK and
the working registers alone give states that do. -/
def Obligations.ScratchIsNotObservable : Prop :=
  ∀ (s s' t t' : State) (i : Instr), SameButScratch s s' → exec i s = .next t → exec i s' = .next t' →
    SameButScratch t t'

/-- The memory keeps its canonical form: from every state whose parameters meet 00_scope.md R6 and whose memory
is in the form, each step that answers a next state leaves it in the form. -/
def Obligations.MemoryFormIsKept : Prop :=
  ∀ s t : State, s.params.valid = true → Memory.wf s.params s.mem = true → step s = .next t →
    Memory.wf t.params t.mem = true

/-- The invariant of `BlockInvariant` holds right after reset. -/
def Obligations.ResetMeetsTheInvariant : Prop := BlockInvariant State.reset

/-- Every step keeps `BlockInvariant`: the parameters meet 00_scope.md R6; the memory is in canonical form and every listed
row fully written; the working registers are Unknown between commands; ET, ST and BK hold values exactly in
READY, ET sorted, oriented, owned and bounded; every delivered row has WIDTH cells. -/
def Obligations.StepKeepsTheInvariant : Prop :=
  ∀ s t : State, BlockInvariant s → step s = .next t → BlockInvariant t
end

