-- ==== Sys2Proof/Laws/Spaces.lean ====
section
/-! SUPPORT. The laws of a space: read after write, the canonical form, and equality by reads. -/

namespace Sys2Proof.Machine.Space

variable {α : Type}

@[simp] theorem get_nil (i : Nat) : Space.get ([] : Space α) i = none := rfl

@[simp] theorem get_set_same (l : Space α) (i : Nat) (a : α) : Space.get (Space.set l i a) i = some a := by
  induction l with
  | nil => simp [Space.set, Space.get]
  | cons e l ih =>
    obtain ⟨j, b⟩ := e
    simp only [Space.set]
    split
    · simp [Space.get]
    · split
      · simp [Space.get]
      · simp_all [Space.get]

theorem get_set_other (l : Space α) {i j : Nat} (h : j ≠ i) (a : α) :
    Space.get (Space.set l i a) j = Space.get l j := by
  induction l with
  | nil => simp [Space.set, Space.get, h]
  | cons e l ih =>
    obtain ⟨k, b⟩ := e
    simp only [Space.set]
    split
    · simp [Space.get, h]
    · split
      · subst_vars; simp [Space.get, h]
      · simp [Space.get, ih]

@[simp] theorem get_erase_same (l : Space α) (i : Nat) : Space.get (Space.erase l i) i = none := by
  induction l with
  | nil => rfl
  | cons e l ih =>
    obtain ⟨j, b⟩ := e
    simp only [Space.erase]
    split
    · exact ih
    · rename_i h; simp [Space.get, h, ih]

theorem get_erase_other (l : Space α) {i j : Nat} (h : j ≠ i) :
    Space.get (Space.erase l i) j = Space.get l j := by
  induction l with
  | nil => rfl
  | cons e l ih =>
    obtain ⟨k, b⟩ := e
    simp only [Space.erase]
    split
    · subst_vars; simp [Space.get, h, ih]
    · simp [Space.get, ih]

theorem mem_set {l : Space α} {i : Nat} {a : α} {e : Nat × α} (h : e ∈ Space.set l i a) :
    e = (i, a) ∨ e ∈ l := by
  induction l with
  | nil => simpa [Space.set] using h
  | cons d l ih =>
    obtain ⟨j, b⟩ := d
    simp only [Space.set] at h
    split at h
    · simpa using h
    · split at h
      · rcases List.mem_cons.1 h with h | h
        · exact .inl h
        · exact .inr (List.mem_cons_of_mem _ h)
      · rcases List.mem_cons.1 h with h | h
        · exact .inr (h ▸ List.mem_cons_self)
        · exact (ih h).imp id (List.mem_cons_of_mem _)

theorem mem_erase {l : Space α} {i : Nat} {e : Nat × α} (h : e ∈ Space.erase l i) : e ∈ l := by
  induction l with
  | nil => simp [Space.erase] at h
  | cons d l ih =>
    obtain ⟨j, b⟩ := d
    simp only [Space.erase] at h
    split at h
    · exact List.mem_cons_of_mem _ (ih h)
    · rcases List.mem_cons.1 h with h | h
      · exact h ▸ List.mem_cons_self
      · exact List.mem_cons_of_mem _ (ih h)

theorem rising_cons {i : Nat} {a : α} {l : Space α} :
    Space.rising ((i, a) :: l) = true ↔ (∀ e ∈ l, i < e.1) ∧ Space.rising l = true := by
  simp [Space.rising]

theorem rising_set {l : Space α} (h : Space.rising l = true) (i : Nat) (a : α) :
    Space.rising (Space.set l i a) = true := by
  induction l with
  | nil => rfl
  | cons e l ih =>
    obtain ⟨j, b⟩ := e
    obtain ⟨hj, hl⟩ := rising_cons.1 h
    simp only [Space.set]
    split
    · rename_i hij
      refine rising_cons.2 ⟨fun e he => ?_, h⟩
      rcases List.mem_cons.1 he with rfl | he
      · exact hij
      · exact Nat.lt_trans hij (hj e he)
    · split
      · rename_i hij
        exact rising_cons.2 ⟨fun e he => hij ▸ hj e he, hl⟩
      · refine rising_cons.2 ⟨fun e he => ?_, ih hl⟩
        rcases mem_set he with rfl | he
        · show j < i
          omega
        · exact hj e he

theorem rising_erase {l : Space α} (h : Space.rising l = true) (i : Nat) :
    Space.rising (Space.erase l i) = true := by
  induction l with
  | nil => rfl
  | cons e l ih =>
    obtain ⟨j, b⟩ := e
    obtain ⟨hj, hl⟩ := rising_cons.1 h
    simp only [Space.erase]
    split
    · exact ih hl
    · exact rising_cons.2 ⟨fun e he => hj e (mem_erase he), ih hl⟩

theorem below_iff {bound : Nat} {l : Space α} : Space.below bound l = true ↔ ∀ e ∈ l, e.1 < bound := by
  simp [Space.below]

theorem below_set {bound : Nat} {l : Space α} (h : Space.below bound l = true) {i : Nat} (hi : i < bound)
    (a : α) : Space.below bound (Space.set l i a) = true :=
  below_iff.2 fun e he => (mem_set he).elim (fun h' => h' ▸ hi) (below_iff.1 h e)

theorem below_erase {bound : Nat} {l : Space α} (h : Space.below bound l = true) (i : Nat) :
    Space.below bound (Space.erase l i) = true :=
  below_iff.2 fun e he => below_iff.1 h e (mem_erase he)

theorem mem_of_get {l : Space α} {i : Nat} {a : α} (h : Space.get l i = some a) : (i, a) ∈ l := by
  induction l with
  | nil => simp at h
  | cons e l ih =>
    obtain ⟨j, b⟩ := e
    simp only [Space.get] at h
    split at h
    · cases h; subst_vars; exact List.mem_cons_self
    · exact List.mem_cons_of_mem _ (ih h)

theorem get_none_of_lt {l : Space α} {i : Nat} (h : ∀ e ∈ l, i < e.1) : Space.get l i = none := by
  induction l with
  | nil => rfl
  | cons e l ih =>
    obtain ⟨j, b⟩ := e
    have hj : i < j := h _ List.mem_cons_self
    simp only [Space.get]
    rw [if_neg (by omega)]
    exact ih fun e he => h e (List.mem_cons_of_mem _ he)

/-- The form is canonical: two spaces in it that read alike everywhere are equal. -/
theorem eq_of_get_eq {l m : Space α} (hl : Space.rising l = true) (hm : Space.rising m = true)
    (h : ∀ i, Space.get l i = Space.get m i) : l = m := by
  induction l generalizing m with
  | nil =>
    cases m with
    | nil => rfl
    | cons e m => obtain ⟨j, b⟩ := e; simpa [Space.get] using h j
  | cons e l ih =>
    obtain ⟨i, a⟩ := e
    cases m with
    | nil => simpa [Space.get] using h i
    | cons d m =>
      obtain ⟨j, b⟩ := d
      obtain ⟨hil, hl'⟩ := rising_cons.1 hl
      obtain ⟨hjm, hm'⟩ := rising_cons.1 hm
      have hij : i = j := by
        rcases Nat.lt_trichotomy i j with hlt | heq | hgt
        · have h1 := h i
          rw [get_none_of_lt (l := (j, b) :: m) (fun e he => by
            rcases List.mem_cons.1 he with rfl | he
            · exact hlt
            · exact Nat.lt_trans hlt (hjm e he))] at h1
          simp [Space.get] at h1
        · exact heq
        · have h1 := h j
          rw [get_none_of_lt (l := (i, a) :: l) (fun e he => by
            rcases List.mem_cons.1 he with rfl | he
            · exact hgt
            · exact Nat.lt_trans hgt (hil e he))] at h1
          simp [Space.get] at h1
      subst hij
      have hab : a = b := by simpa [Space.get] using h i
      subst hab
      have : l = m := ih hl' hm' fun k => by
        have hk := h k
        simp only [Space.get] at hk
        split at hk
        · subst_vars; rw [get_none_of_lt hil, get_none_of_lt hjm]
        · exact hk
      rw [this]

end Sys2Proof.Machine.Space
end

