-- ==== Sys2Proof/Laws/Memory.lean ====
section
/-! SUPPORT. The laws of the memory: a read after a write, what a write leaves alone, and that every
operation keeps the canonical form. -/

namespace Sys2Proof.Machine

/-- The parts of the canonical form. -/
theorem Memory.wf_iff {p : Params} {m : Memory} :
    Memory.wf p m = true ↔
      Space.rising m.vb = true ∧ Space.below p.maxVertices m.vb = true ∧
      Space.rising m.pl = true ∧ Space.below p.maxPolygons m.pl = true ∧
      Space.rising m.cache = true ∧ Space.below p.cacheLines m.cache = true ∧
      ∀ e ∈ m.cache, e.2.length = p.width ∧ e.2 ≠ unknownRow p := by
  simp [Memory.wf, and_assoc]

/-- The memory after reset is in canonical form, whatever the parameters. -/
theorem Memory.wf_empty (p : Params) : Memory.wf p ⟨[], [], []⟩ = true := by
  simp [Memory.wf, Space.rising, Space.below]

theorem Memory.wf_reset : Memory.wf State.reset.params State.reset.mem = true := Memory.wf_empty _

/-- Clearing the cache keeps the canonical form. -/
theorem Memory.wf_clear {p : Params} {m : Memory} (h : Memory.wf p m = true) :
    Memory.wf p { m with cache := [] } = true := by
  obtain ⟨h1, h2, h3, h4, -⟩ := Memory.wf_iff.1 h
  exact Memory.wf_iff.2 ⟨h1, h2, h3, h4, rfl, rfl, by simp⟩

@[simp] theorem length_unknownRow (p : Params) : (unknownRow p).length = p.width := by simp [unknownRow]

@[simp] theorem writeRow_vb (p : Params) (m : Memory) (k : Nat) (r : Row) : (writeRow p m k r).vb = m.vb := by
  unfold writeRow; split <;> rfl

@[simp] theorem writeRow_pl (p : Params) (m : Memory) (k : Nat) (r : Row) : (writeRow p m k r).pl = m.pl := by
  unfold writeRow; split <;> rfl

/-- A slot reads as the row last written to it (47_scanline_cache.md R501, R502). -/
@[simp] theorem readRow_writeRow_same (p : Params) (m : Memory) (k : Nat) (r : Row) :
    readRow p (writeRow p m k r) k = r := by
  by_cases hr : r = unknownRow p <;> simp [writeRow, readRow, hr]

/-- Writing a slot leaves every other slot alone (47_scanline_cache.md R501). -/
theorem readRow_writeRow_other (p : Params) (m : Memory) {j k : Nat} (h : j ≠ k) (r : Row) :
    readRow p (writeRow p m k r) j = readRow p m j := by
  by_cases hr : r = unknownRow p <;>
    simp [writeRow, readRow, hr, Space.get_erase_other _ h, Space.get_set_other _ h]

/-- A row read has WIDTH cells (30_encoding.md R162). -/
theorem length_readRow {p : Params} {m : Memory} (h : Memory.wf p m = true) (k : Nat) :
    (readRow p m k).length = p.width := by
  obtain ⟨-, -, -, -, -, -, h7⟩ := Memory.wf_iff.1 h
  unfold readRow
  split
  · rename_i r hr; exact (h7 _ (Space.mem_of_get hr)).1
  · simp

/-- Writing a row of WIDTH cells to a slot of the cache keeps the canonical form. -/
theorem Memory.wf_writeRow {p : Params} {m : Memory} (h : Memory.wf p m = true) {k : Nat}
    (hk : k < p.cacheLines) {r : Row} (hr : r.length = p.width) :
    Memory.wf p (writeRow p m k r) = true := by
  obtain ⟨h1, h2, h3, h4, h5, h6, h7⟩ := Memory.wf_iff.1 h
  refine Memory.wf_iff.2 ⟨by simpa, by simpa, by simpa, by simpa, ?_⟩
  unfold writeRow
  split
  · exact ⟨Space.rising_erase h5 k, Space.below_erase h6 k, fun e he => h7 e (Space.mem_erase he)⟩
  · rename_i hne
    refine ⟨Space.rising_set h5 k r, Space.below_set h6 hk r, fun e he => ?_⟩
    rcases Space.mem_set he with rfl | he
    · exact ⟨hr, hne⟩
    · exact h7 e he

/-- The geometry stage's write of a vertex record keeps the canonical form. -/
theorem Memory.wf_setVertex {p : Params} {m : Memory} (h : Memory.wf p m = true) {i : Nat}
    (hi : i < p.maxVertices) (v : Vertex) :
    Memory.wf p { m with vb := Space.set m.vb i v } = true := by
  obtain ⟨h1, h2, h3⟩ := Memory.wf_iff.1 h
  exact Memory.wf_iff.2 ⟨Space.rising_set h1 i v, Space.below_set h2 hi v, h3⟩

/-- The geometry stage's write of a polygon record keeps the canonical form. -/
theorem Memory.wf_setPolygon {p : Params} {m : Memory} (h : Memory.wf p m = true) {q : Nat}
    (hq : q < p.maxPolygons) (r : Polygon) :
    Memory.wf p { m with pl := Space.set m.pl q r } = true := by
  obtain ⟨h1, h2, h3, h4, h5⟩ := Memory.wf_iff.1 h
  exact Memory.wf_iff.2 ⟨h1, h2, Space.rising_set h3 q r, Space.below_set h4 hq r, h5⟩

/-- A slot lies in the cache when the cache has a slot (47_scanline_cache.md R500). -/
theorem slotOf_lt {p : Params} (h : 0 < p.cacheLines) (y : Nat) : slotOf p y < p.cacheLines :=
  Nat.mod_lt _ h

end Sys2Proof.Machine
end

