-- ==== Sys2Proof/Laws/State.lean ====
section
/-! SUPPORT. One lemma per field per update of the state, so that no proof unfolds a record update. -/

namespace Sys2Proof.Machine

/-! ## raiseFault -/

@[simp] theorem raiseFault_params (code : FaultCode) (w : Word) (s : State) : (raiseFault code w s).params = s.params := by
  unfold raiseFault; split <;> rfl

@[simp] theorem raiseFault_life (code : FaultCode) (w : Word) (s : State) : (raiseFault code w s).life = s.life := by
  unfold raiseFault; split <;> rfl

@[simp] theorem raiseFault_et (code : FaultCode) (w : Word) (s : State) : (raiseFault code w s).et = s.et := by
  unfold raiseFault; split <;> rfl

@[simp] theorem raiseFault_st (code : FaultCode) (w : Word) (s : State) : (raiseFault code w s).st = s.st := by
  unfold raiseFault; split <;> rfl

@[simp] theorem raiseFault_bk (code : FaultCode) (w : Word) (s : State) : (raiseFault code w s).bk = s.bk := by
  unfold raiseFault; split <;> rfl

@[simp] theorem raiseFault_work (code : FaultCode) (w : Word) (s : State) : (raiseFault code w s).work = s.work := by
  unfold raiseFault; split <;> rfl

@[simp] theorem raiseFault_mem (code : FaultCode) (w : Word) (s : State) : (raiseFault code w s).mem = s.mem := by
  unfold raiseFault; split <;> rfl

@[simp] theorem raiseFault_port (code : FaultCode) (w : Word) (s : State) : (raiseFault code w s).port = s.port := by
  unfold raiseFault; split <;> rfl

@[simp] theorem raiseFault_rowOut (code : FaultCode) (w : Word) (s : State) : (raiseFault code w s).rowOut = s.rowOut := by
  unfold raiseFault; split <;> rfl

@[simp] theorem raiseFault_draws (code : FaultCode) (w : Word) (s : State) : (raiseFault code w s).draws = s.draws := by
  unfold raiseFault; split <;> rfl

theorem raiseFault_of_none {s : State} (h : s.fault = none) (code : FaultCode) (w : Word) :
    raiseFault code w s = { s with fault := some ⟨code, w⟩ } := by
  simp [raiseFault, h]

theorem raiseFault_of_some {s : State} {f : FaultRecord} (h : s.fault = some f) (code : FaultCode) (w : Word) :
    raiseFault code w s = s := by
  simp [raiseFault, h]

/-- Everything raising a fault can do (10_state.md R53). -/
theorem raiseFault_cases (code : FaultCode) (w : Word) (s : State) :
    (s.fault = none ∧ raiseFault code w s = { s with fault := some ⟨code, w⟩ }) ∨
    (∃ f, s.fault = some f ∧ raiseFault code w s = s) := by
  cases h : s.fault with
  | none => exact .inl ⟨rfl, raiseFault_of_none h code w⟩
  | some f => exact .inr ⟨f, rfl, raiseFault_of_some h code w⟩

/-- A fault record once written stays (60_exceptions.md R604). -/
theorem raiseFault_keeps_fault {s : State} {f : FaultRecord} (h : s.fault = some f) (code : FaultCode)
    (w : Word) : (raiseFault code w s).fault = some f := by
  rw [raiseFault_of_some h, h]

/-! ## powerOn -/

@[simp] theorem powerOn_params (s : State) : (powerOn s).params = s.params := rfl

@[simp] theorem powerOn_life (s : State) : (powerOn s).life = .uninit := rfl

@[simp] theorem powerOn_fault (s : State) : (powerOn s).fault = none := rfl

@[simp] theorem powerOn_et (s : State) : (powerOn s).et = .unknown := rfl

@[simp] theorem powerOn_st (s : State) : (powerOn s).st = .unknown := rfl

@[simp] theorem powerOn_bk (s : State) : (powerOn s).bk = .unknown := rfl

@[simp] theorem powerOn_work (s : State) : (powerOn s).work = WorkRegs.unknown := rfl

@[simp] theorem powerOn_mem (s : State) : (powerOn s).mem = ⟨[], [], []⟩ := rfl

@[simp] theorem powerOn_port (s : State) : (powerOn s).port = s.port := rfl

@[simp] theorem powerOn_rowOut (s : State) : (powerOn s).rowOut = s.rowOut := rfl

@[simp] theorem powerOn_draws (s : State) : (powerOn s).draws = s.draws + 1 := rfl

/-! ## initialise -/

@[simp] theorem initialise_params (s : State) : (initialise s).params = s.params := rfl

@[simp] theorem initialise_life (s : State) : (initialise s).life = .ready := rfl

@[simp] theorem initialise_fault (s : State) : (initialise s).fault = s.fault := rfl

@[simp] theorem initialise_et (s : State) : (initialise s).et = .known [] := rfl

@[simp] theorem initialise_st (s : State) : (initialise s).st = .known [] := rfl

@[simp] theorem initialise_bk (s : State) : (initialise s).bk = .known [] := rfl

@[simp] theorem initialise_work (s : State) : (initialise s).work = WorkRegs.unknown := rfl

@[simp] theorem initialise_mem (s : State) : (initialise s).mem = { s.mem with cache := [] } := rfl

@[simp] theorem initialise_port (s : State) : (initialise s).port = s.port := rfl

@[simp] theorem initialise_rowOut (s : State) : (initialise s).rowOut = s.rowOut := rfl

@[simp] theorem initialise_draws (s : State) : (initialise s).draws = s.draws := rfl

/-! ## dropGeometry -/

@[simp] theorem dropGeometry_params (s : State) : (dropGeometry s).params = s.params := rfl

@[simp] theorem dropGeometry_life (s : State) : (dropGeometry s).life = s.life := rfl

@[simp] theorem dropGeometry_fault (s : State) : (dropGeometry s).fault = s.fault := rfl

@[simp] theorem dropGeometry_et (s : State) : (dropGeometry s).et = .known [] := rfl

@[simp] theorem dropGeometry_st (s : State) : (dropGeometry s).st = .known [] := rfl

@[simp] theorem dropGeometry_bk (s : State) : (dropGeometry s).bk = .known [] := rfl

@[simp] theorem dropGeometry_work (s : State) : (dropGeometry s).work = WorkRegs.unknown := rfl

@[simp] theorem dropGeometry_mem (s : State) : (dropGeometry s).mem = s.mem := rfl

@[simp] theorem dropGeometry_port (s : State) : (dropGeometry s).port = s.port := rfl

@[simp] theorem dropGeometry_rowOut (s : State) : (dropGeometry s).rowOut = s.rowOut := rfl

@[simp] theorem dropGeometry_draws (s : State) : (dropGeometry s).draws = s.draws := rfl

/-! ## release -/

@[simp] theorem release_params (s : State) : (release s).params = s.params := rfl

@[simp] theorem release_life (s : State) : (release s).life = .deinit := rfl

@[simp] theorem release_fault (s : State) : (release s).fault = s.fault := rfl

@[simp] theorem release_et (s : State) : (release s).et = .unknown := rfl

@[simp] theorem release_st (s : State) : (release s).st = .unknown := rfl

@[simp] theorem release_bk (s : State) : (release s).bk = .unknown := rfl

@[simp] theorem release_work (s : State) : (release s).work = WorkRegs.unknown := rfl

@[simp] theorem release_mem (s : State) : (release s).mem = { s.mem with cache := [] } := rfl

@[simp] theorem release_port (s : State) : (release s).port = s.port := rfl

@[simp] theorem release_rowOut (s : State) : (release s).rowOut = s.rowOut := rfl

@[simp] theorem release_draws (s : State) : (release s).draws = s.draws := rfl

/-! ## rebuildEdges -/

@[simp] theorem rebuildEdges_params (n : Nat) (s : State) : (rebuildEdges n s).params = s.params := rfl

@[simp] theorem rebuildEdges_life (n : Nat) (s : State) : (rebuildEdges n s).life = s.life := rfl

@[simp] theorem rebuildEdges_fault (n : Nat) (s : State) : (rebuildEdges n s).fault = s.fault := rfl

@[simp] theorem rebuildEdges_et (n : Nat) (s : State) :
    (rebuildEdges n s).et = .known (sortEdges s.params.edgeTieOrder (buildEdges s.mem s.draws n)) := rfl

@[simp] theorem rebuildEdges_st (n : Nat) (s : State) : (rebuildEdges n s).st = s.st := rfl

@[simp] theorem rebuildEdges_bk (n : Nat) (s : State) : (rebuildEdges n s).bk = s.bk := rfl

@[simp] theorem rebuildEdges_work (n : Nat) (s : State) : (rebuildEdges n s).work = s.work := rfl

@[simp] theorem rebuildEdges_mem (n : Nat) (s : State) : (rebuildEdges n s).mem = s.mem := rfl

@[simp] theorem rebuildEdges_port (n : Nat) (s : State) : (rebuildEdges n s).port = s.port := rfl

@[simp] theorem rebuildEdges_rowOut (n : Nat) (s : State) : (rebuildEdges n s).rowOut = s.rowOut := rfl

@[simp] theorem rebuildEdges_draws (n : Nat) (s : State) : (rebuildEdges n s).draws = s.draws + 1 := rfl

/-! ## drawScanline -/

@[simp] theorem drawScanline_params (y : Nat) (s : State) : (drawScanline y s).params = s.params := rfl

@[simp] theorem drawScanline_life (y : Nat) (s : State) : (drawScanline y s).life = s.life := rfl

@[simp] theorem drawScanline_fault (y : Nat) (s : State) : (drawScanline y s).fault = s.fault := rfl

@[simp] theorem drawScanline_et (y : Nat) (s : State) :
    (drawScanline y s).et = .known (assembled y s).et := rfl

@[simp] theorem drawScanline_st (y : Nat) (s : State) :
    (drawScanline y s).st = .known (resolved y s).st := rfl

@[simp] theorem drawScanline_bk (y : Nat) (s : State) :
    (drawScanline y s).bk = .known (assembled y s).bk := rfl

@[simp] theorem drawScanline_work (y : Nat) (s : State) : (drawScanline y s).work = WorkRegs.unknown := rfl

@[simp] theorem drawScanline_mem (y : Nat) (s : State) :
    (drawScanline y s).mem = writeRow s.params s.mem (slotOf s.params y) (resolved y s).row := rfl

@[simp] theorem drawScanline_port (y : Nat) (s : State) : (drawScanline y s).port = s.port := rfl

@[simp] theorem drawScanline_rowOut (y : Nat) (s : State) : (drawScanline y s).rowOut = s.rowOut := rfl

@[simp] theorem drawScanline_draws (y : Nat) (s : State) :
    (drawScanline y s).draws = (resolved y s).draws := rfl

/-! ## deliver -/

@[simp] theorem deliver_params (r : Row) (s : State) : (deliver r s).params = s.params := rfl

@[simp] theorem deliver_life (r : Row) (s : State) : (deliver r s).life = s.life := rfl

@[simp] theorem deliver_fault (r : Row) (s : State) : (deliver r s).fault = s.fault := rfl

@[simp] theorem deliver_et (r : Row) (s : State) : (deliver r s).et = s.et := rfl

@[simp] theorem deliver_st (r : Row) (s : State) : (deliver r s).st = s.st := rfl

@[simp] theorem deliver_bk (r : Row) (s : State) : (deliver r s).bk = s.bk := rfl

@[simp] theorem deliver_work (r : Row) (s : State) : (deliver r s).work = s.work := rfl

@[simp] theorem deliver_mem (r : Row) (s : State) : (deliver r s).mem = s.mem := rfl

@[simp] theorem deliver_port (r : Row) (s : State) : (deliver r s).port = s.port := rfl

@[simp] theorem deliver_rowOut (r : Row) (s : State) : (deliver r s).rowOut = s.rowOut ++ [r] := rfl

@[simp] theorem deliver_draws (r : Row) (s : State) : (deliver r s).draws = s.draws := rfl

/-! ## writeVertex -/

@[simp] theorem writeVertex_params (i : Nat) (v : Vertex) (s : State) :
    (writeVertex i v s).params = s.params := rfl

@[simp] theorem writeVertex_life (i : Nat) (v : Vertex) (s : State) : (writeVertex i v s).life = s.life := rfl

@[simp] theorem writeVertex_fault (i : Nat) (v : Vertex) (s : State) :
    (writeVertex i v s).fault = s.fault := rfl

@[simp] theorem writeVertex_et (i : Nat) (v : Vertex) (s : State) : (writeVertex i v s).et = s.et := rfl

@[simp] theorem writeVertex_st (i : Nat) (v : Vertex) (s : State) : (writeVertex i v s).st = s.st := rfl

@[simp] theorem writeVertex_bk (i : Nat) (v : Vertex) (s : State) : (writeVertex i v s).bk = s.bk := rfl

@[simp] theorem writeVertex_work (i : Nat) (v : Vertex) (s : State) : (writeVertex i v s).work = s.work := rfl

@[simp] theorem writeVertex_mem (i : Nat) (v : Vertex) (s : State) :
    (writeVertex i v s).mem = { s.mem with vb := Space.set s.mem.vb i v } := rfl

@[simp] theorem writeVertex_port (i : Nat) (v : Vertex) (s : State) : (writeVertex i v s).port = s.port := rfl

@[simp] theorem writeVertex_rowOut (i : Nat) (v : Vertex) (s : State) :
    (writeVertex i v s).rowOut = s.rowOut := rfl

@[simp] theorem writeVertex_draws (i : Nat) (v : Vertex) (s : State) :
    (writeVertex i v s).draws = s.draws := rfl

/-! ## writePolygon -/

@[simp] theorem writePolygon_params (p : Nat) (r : Polygon) (s : State) :
    (writePolygon p r s).params = s.params := rfl

@[simp] theorem writePolygon_life (p : Nat) (r : Polygon) (s : State) :
    (writePolygon p r s).life = s.life := rfl

@[simp] theorem writePolygon_fault (p : Nat) (r : Polygon) (s : State) :
    (writePolygon p r s).fault = s.fault := rfl

@[simp] theorem writePolygon_et (p : Nat) (r : Polygon) (s : State) : (writePolygon p r s).et = s.et := rfl

@[simp] theorem writePolygon_st (p : Nat) (r : Polygon) (s : State) : (writePolygon p r s).st = s.st := rfl

@[simp] theorem writePolygon_bk (p : Nat) (r : Polygon) (s : State) : (writePolygon p r s).bk = s.bk := rfl

@[simp] theorem writePolygon_work (p : Nat) (r : Polygon) (s : State) :
    (writePolygon p r s).work = s.work := rfl

@[simp] theorem writePolygon_mem (p : Nat) (r : Polygon) (s : State) :
    (writePolygon p r s).mem = { s.mem with pl := Space.set s.mem.pl p r } := rfl

@[simp] theorem writePolygon_port (p : Nat) (r : Polygon) (s : State) :
    (writePolygon p r s).port = s.port := rfl

@[simp] theorem writePolygon_rowOut (p : Nat) (r : Polygon) (s : State) :
    (writePolygon p r s).rowOut = s.rowOut := rfl

@[simp] theorem writePolygon_draws (p : Nat) (r : Polygon) (s : State) :
    (writePolygon p r s).draws = s.draws := rfl

/-! ## queueFirst -/

@[simp] theorem queueFirst_params (hs : List HostMove) (s : State) :
    (queueFirst hs s).params = s.params := rfl

@[simp] theorem queueFirst_life (hs : List HostMove) (s : State) : (queueFirst hs s).life = s.life := rfl

@[simp] theorem queueFirst_fault (hs : List HostMove) (s : State) : (queueFirst hs s).fault = s.fault := rfl

@[simp] theorem queueFirst_et (hs : List HostMove) (s : State) : (queueFirst hs s).et = s.et := rfl

@[simp] theorem queueFirst_st (hs : List HostMove) (s : State) : (queueFirst hs s).st = s.st := rfl

@[simp] theorem queueFirst_bk (hs : List HostMove) (s : State) : (queueFirst hs s).bk = s.bk := rfl

@[simp] theorem queueFirst_work (hs : List HostMove) (s : State) : (queueFirst hs s).work = s.work := rfl

@[simp] theorem queueFirst_mem (hs : List HostMove) (s : State) : (queueFirst hs s).mem = s.mem := rfl

@[simp] theorem queueFirst_port (hs : List HostMove) (s : State) :
    (queueFirst hs s).port = hs ++ s.port := rfl

@[simp] theorem queueFirst_rowOut (hs : List HostMove) (s : State) :
    (queueFirst hs s).rowOut = s.rowOut := rfl

@[simp] theorem queueFirst_draws (hs : List HostMove) (s : State) : (queueFirst hs s).draws = s.draws := rfl

@[simp] theorem withFetchWord_eq (s : State) (nbits w : Nat) :
    s.withFetchWord nbits w = { s with port := tableMove nbits w :: s.port } := rfl

end Sys2Proof.Machine
end

