-- ==== Sys2Proof/Laws/Commands.lean ====
section
/-! SUPPORT. What the shared frame of a command, the operand checks and each command can do. -/

namespace Sys2Proof.Machine

/-! ## The operand checks -/

theorem scanlineCheck_of_lt {p : Params} {y : Nat} (h : y < p.screenHeight) : scanlineCheck p y = none := by
  simp [scanlineCheck, Nat.not_le.2 h]

theorem scanlineCheck_of_le {p : Params} {y : Nat} (h : p.screenHeight ≤ y) :
    scanlineCheck p y = some .scanlineRange := by
  simp [scanlineCheck, h]

theorem shapeAdmitted_iff {r : Polygon} : shapeAdmitted r = true ↔ 3 ≤ r.n ∧ r.n ≤ 4 := by
  rw [shapeAdmitted, Bool.and_eq_true, decide_eq_true_iff, decide_eq_true_iff, Config.maxPolyVerts]

theorem indicesAdmitted_iff {p : Params} {r : Polygon} :
    indicesAdmitted p r = true ↔ ∀ i ∈ r.v, i < p.maxVertices := by
  simp [indicesAdmitted]

/-- A polygon passes SUBMIT's checks exactly when it is admitted (10_state.md R55). -/
theorem polygonCheck_none_iff {p : Params} {r : Polygon} :
    polygonCheck p r = none ↔ 3 ≤ r.n ∧ r.n ≤ 4 ∧ ∀ i ∈ r.v, i < p.maxVertices := by
  unfold polygonCheck
  rw [← and_assoc, ← shapeAdmitted_iff, ← indicesAdmitted_iff]
  split <;> simp_all

/-- SUBMIT's polygon checks pass exactly when every polygon passes (60_exceptions.md R601). -/
theorem polygonsCheck_none_iff {p : Params} {m : Memory} {k n : Nat} :
    polygonsCheck p m k n = none ↔ ∀ q < n, polygonCheck p (readPolygon m k q) = none := by
  simp [polygonsCheck, List.findSome?_eq_none_iff]

/-- The first polygon that fails decides SUBMIT's fault (60_exceptions.md R601). -/
theorem polygonsCheck_of_first {p : Params} {m : Memory} {k n q : Nat} {code : FaultCode} (hq : q < n)
    (before : ∀ q' < q, polygonCheck p (readPolygon m k q') = none)
    (here : polygonCheck p (readPolygon m k q) = some code) : polygonsCheck p m k n = some code := by
  have hsplit : List.range n = List.range q ++ q :: (List.range (n - q - 1)).map (fun i => q + 1 + i) := by
    have h1 : n = q + (1 + (n - q - 1)) := by omega
    conv_lhs => rw [h1, List.range_add, List.range_add]
    simp [Nat.add_assoc]
  have hnone : (List.range q).findSome? (fun i => polygonCheck p (readPolygon m k i)) = none := by
    simpa [List.findSome?_eq_none_iff] using before
  unfold polygonsCheck
  rw [hsplit, List.findSome?_append, hnone, List.findSome?_cons, here]
  rfl

theorem submitCheck_of_gt {n : Nat} {s : State} (h : s.params.maxPolygons < n) :
    submitCheck n s = some .polygonCount := by
  simp [submitCheck, h]

theorem submitCheck_of_le {n : Nat} {s : State} (h : n ≤ s.params.maxPolygons) :
    submitCheck n s = polygonsCheck s.params s.mem s.draws n := by
  simp [submitCheck, Nat.not_lt.2 h]

/-- SUBMIT passes its checks exactly when N fits and every polygon is admitted. -/
theorem submitCheck_none_iff {n : Nat} {s : State} :
    submitCheck n s = none ↔ n ≤ s.params.maxPolygons ∧
      ∀ q < n, polygonCheck s.params (readPolygon s.mem s.draws q) = none := by
  by_cases h : s.params.maxPolygons < n
  · simp [submitCheck_of_gt h]; omega
  · rw [submitCheck_of_le (Nat.not_lt.1 h), polygonsCheck_none_iff]
    exact ⟨fun h' => ⟨Nat.not_lt.1 h, h'⟩, fun h' => h'.2⟩

/-! ## The frame of a command -/

theorem performWhenReady_effect {s : State} (h : s.life = .ready) (i : Instr) (effect : State) :
    performWhenReady i none s effect = .next effect := by
  simp [performWhenReady, h]

theorem performWhenReady_fault {s : State} (h : s.life = .ready) (i : Instr) (code : FaultCode)
    (effect : State) : performWhenReady i (some code) s effect = .next (raiseFault code (encode i) s) := by
  simp [performWhenReady, h]

theorem performWhenReady_notReady {s : State} (h : s.life ≠ .ready) (i : Instr) (check : Option FaultCode)
    (effect : State) : performWhenReady i check s effect = .next (raiseFault .notReady (encode i) s) := by
  simp [performWhenReady, h]

/-- Everything the frame of a command can do (48_commands.md R550): its effect in READY when no check fails,
else one raised fault. -/
theorem performWhenReady_cases {i : Instr} {check : Option FaultCode} {s effect t : State}
    (h : performWhenReady i check s effect = .next t) :
    (s.life = .ready ∧ check = none ∧ t = effect) ∨
    (∃ code, (s.life ≠ .ready ∨ check = some code) ∧ t = raiseFault code (encode i) s) := by
  by_cases hr : s.life = .ready
  · cases check with
    | none =>
      rw [performWhenReady_effect hr] at h
      cases h
      exact .inl ⟨hr, rfl, rfl⟩
    | some code =>
      rw [performWhenReady_fault hr] at h
      cases h
      exact .inr ⟨code, .inr rfl, rfl⟩
  · rw [performWhenReady_notReady hr] at h
    cases h
    exact .inr ⟨.notReady, .inl hr, rfl⟩

/-! ## What each command can do -/

/-- The effect of a command when it is performed without a fault. -/
def effectOf (i : Instr) (s : State) : State :=
  match i with
  | .init => initialise s
  | .reset => dropGeometry s
  | .deinit => release s
  | .submit n => rebuildEdges n s
  | .draw y => drawScanline y s
  | .read y => deliver (readRow s.params s.mem (slotOf s.params y)) s

/-- The operand check of a command. -/
def checkOf (i : Instr) (s : State) : Option FaultCode :=
  match i with
  | .init => none
  | .reset => none
  | .deinit => none
  | .submit n => submitCheck n s
  | .draw y => scanlineCheck s.params y
  | .read y => scanlineCheck s.params y

theorem exec_init (s : State) : exec .init s = .next (initialise s) := rfl

/-- Every command but INIT runs in the frame of 48_commands.md R550. -/
theorem exec_of_ne_init {i : Instr} (h : i ≠ .init) (s : State) :
    exec i s = performWhenReady i (checkOf i s) s (effectOf i s) := by
  cases i <;> first | exact absurd rfl h | rfl

/-- Everything a command can do: its effect, or one raised fault. -/
theorem exec_cases {i : Instr} {s t : State} (h : exec i s = .next t) :
    ((i = .init ∨ s.life = .ready) ∧ checkOf i s = none ∧ t = effectOf i s) ∨
    (∃ code, i ≠ .init ∧ (s.life ≠ .ready ∨ checkOf i s = some code) ∧
      t = raiseFault code (encode i) s) := by
  by_cases hi : i = .init
  · subst hi; cases h; exact .inl ⟨.inl rfl, rfl, rfl⟩
  · rw [exec_of_ne_init hi] at h
    rcases performWhenReady_cases h with ⟨hr, hc, ht⟩ | ⟨code, hc, ht⟩
    · exact .inl ⟨.inr hr, hc, ht⟩
    · exact .inr ⟨code, hi, hc, ht⟩

/-- A command always answers a next state. -/
theorem exec_total (i : Instr) (s : State) : ∃ t, exec i s = .next t := by
  by_cases hi : i = .init
  · subst hi; exact ⟨_, exec_init s⟩
  · rw [exec_of_ne_init hi]
    by_cases hr : s.life = .ready
    · cases hc : checkOf i s with
      | none => exact ⟨_, performWhenReady_effect hr i _⟩
      | some code => exact ⟨_, performWhenReady_fault hr i code _⟩
    · exact ⟨_, performWhenReady_notReady hr i _ _⟩

theorem exec_effect {i : Instr} {s : State} (hr : s.life = .ready) (hc : checkOf i s = none) :
    exec i s = .next (effectOf i s) := by
  by_cases hi : i = .init
  · subst hi; rfl
  · rw [exec_of_ne_init hi, hc, performWhenReady_effect hr]

theorem exec_fault {i : Instr} {s : State} {code : FaultCode} (hi : i ≠ .init) (hr : s.life = .ready)
    (hc : checkOf i s = some code) : exec i s = .next (raiseFault code (encode i) s) := by
  rw [exec_of_ne_init hi, hc, performWhenReady_fault hr]

theorem exec_notReady {i : Instr} {s : State} (hi : i ≠ .init) (hr : s.life ≠ .ready) :
    exec i s = .next (raiseFault .notReady (encode i) s) := by
  rw [exec_of_ne_init hi, performWhenReady_notReady hr]

/-- No command's effect touches the parameters, the port, VB, PL or FAULT. -/
theorem effectOf_frame (i : Instr) (s : State) :
    (effectOf i s).params = s.params ∧ (effectOf i s).port = s.port ∧
    (effectOf i s).mem.vb = s.mem.vb ∧ (effectOf i s).mem.pl = s.mem.pl ∧
    (effectOf i s).fault = s.fault := by
  cases i <;> simp [effectOf]

/-! ## What a step can do -/

/-- Everything one step can do (48_commands.md R550, R558). -/
theorem step_cases {s t : State} (h : step s = .next t) :
    (s.port = [] ∧ t = s) ∨
    (∃ rest, s.port = .powerOn :: rest ∧ t = powerOn { s with port := rest }) ∨
    (∃ i v rest, s.port = .writeVertex i v :: rest ∧ i < s.params.maxVertices ∧
      t = writeVertex i v { s with port := rest }) ∨
    (∃ p r rest, s.port = .writePolygon p r :: rest ∧ p < s.params.maxPolygons ∧
      t = writePolygon p r { s with port := rest }) ∨
    (∃ w rest, s.port = .command w :: rest ∧
      ((s.fault ≠ none ∧ t = { s with port := rest }) ∨
       (s.fault = none ∧ (∀ i, decode w ≠ .command i) ∧
         ∃ code, t = raiseFault code w { s with port := rest }) ∨
       (s.fault = none ∧ ∃ i, decode w = .command i ∧ exec i { s with port := rest } = .next t))) := by
  simp only [step, advance] at h
  split at h
  · rename_i hp; cases h; exact .inl ⟨hp, rfl⟩
  · rename_i m rest hp
    cases m with
    | powerOn => cases h; exact .inr (.inl ⟨rest, hp, rfl⟩)
    | writeVertex i v =>
      simp only [performMove] at h
      split at h
      · rename_i hi; cases h; exact .inr (.inr (.inl ⟨i, v, rest, hp, hi, rfl⟩))
      · cases h
    | writePolygon p r =>
      simp only [performMove] at h
      split at h
      · rename_i hi; cases h; exact .inr (.inr (.inr (.inl ⟨p, r, rest, hp, hi, rfl⟩)))
      · cases h
    | command w =>
      refine .inr (.inr (.inr (.inr ⟨w, rest, hp, ?_⟩)))
      simp only [performMove, performWord] at h
      split at h
      · rename_i f hf; cases h; exact .inl ⟨by simp_all, rfl⟩
      · rename_i hf
        split at h
        · rename_i hd; cases h; exact .inr (.inl ⟨hf, by simp [hd], _, rfl⟩)
        · rename_i hd; cases h; exact .inr (.inl ⟨hf, by simp [hd], _, rfl⟩)
        · rename_i i hd; exact .inr (.inr ⟨hf, i, hd, h⟩)

theorem step_command {s : State} {w : Word} {rest : List HostMove} (hp : s.port = .command w :: rest) :
    step s = performWord w { s with port := rest } := by
  simp [step, advance, hp, performMove]

theorem performWord_faulted {s : State} (h : s.fault ≠ none) (w : Word) : performWord w s = .next s := by
  unfold performWord
  split
  · rfl
  · contradiction

theorem performWord_command {s : State} (hf : s.fault = none) {w : Word} {i : Instr}
    (hd : decode w = .command i) : performWord w s = exec i s := by
  simp [performWord, hf, hd]

theorem performWord_illegal {s : State} (hf : s.fault = none) {w : Word} (hd : decode w = .illegal) :
    performWord w s = .next (raiseFault .illegalCommand w s) := by
  simp [performWord, hf, hd]

theorem performWord_reservedField {s : State} (hf : s.fault = none) {w : Word}
    (hd : decode w = .reservedField) : performWord w s = .next (raiseFault .reservedField w s) := by
  simp [performWord, hf, hd]

end Sys2Proof.Machine
end

