-- ==== Sys2Proof/Laws/Decode.lean ====
section
/-! SUPPORT. The fields of a command word. -/

namespace Sys2Proof

/-- OPC as a number (30_encoding.md R151). -/
theorem opcField_eq (w : Word) : opcField w = w.toNat / 2 ^ 28 := by
  have := w.isLt
  simp [opcField, BitVec.extractLsb'_toNat, Nat.shiftRight_eq_div_pow]
  omega

/-- RSV as a number (30_encoding.md R151). -/
theorem rsvField_eq (w : Word) : rsvField w = w.toNat / 2 ^ 16 % 2 ^ 12 := by
  simp [rsvField, BitVec.extractLsb'_toNat, Nat.shiftRight_eq_div_pow]

/-- IMM as a number (30_encoding.md R151, R153). -/
theorem immField_eq (w : Word) : immField w = w.toNat % 2 ^ 16 := by
  simp [immField, BitVec.extractLsb'_toNat]

/-- A command word as a number. -/
theorem commandWord_toNat (opc : BitVec 4) (rsv : BitVec 12) (imm : BitVec 16) :
    (commandWord opc rsv imm).toNat = opc.toNat * 2 ^ 28 + rsv.toNat * 2 ^ 16 + imm.toNat := by
  have h1 := opc.isLt
  have h2 := rsv.isLt
  have h3 := imm.isLt
  simp only [commandWord, BitVec.toNat_append]
  rw [← Nat.shiftLeft_add_eq_or_of_lt h3, ← Nat.shiftLeft_add_eq_or_of_lt h2]
  simp only [Nat.shiftLeft_eq]
  omega

/-- The fields of a command word are the fields it was made of. -/
theorem commandWord_fields (opc : BitVec 4) (rsv : BitVec 12) (imm : BitVec 16) :
    opcField (commandWord opc rsv imm) = opc.toNat ∧ rsvField (commandWord opc rsv imm) = rsv.toNat ∧
    immField (commandWord opc rsv imm) = imm.toNat := by
  have h1 := opc.isLt
  have h2 := rsv.isLt
  have h3 := imm.isLt
  rw [opcField_eq, rsvField_eq, immField_eq, commandWord_toNat]
  omega

/-- A word is determined by its three fields. -/
theorem word_eq_of_fields {w u : Word} (h1 : opcField w = opcField u) (h2 : rsvField w = rsvField u)
    (h3 : immField w = immField u) : w = u := by
  rw [opcField_eq, opcField_eq] at h1
  rw [rsvField_eq, rsvField_eq] at h2
  rw [immField_eq, immField_eq] at h3
  apply BitVec.eq_of_toNat_eq
  omega

end Sys2Proof
end

