-- ==== Sys2Proof/Laws/Numeric.lean ====
section
/-! SUPPORT. The arithmetic primitives as plain integer arithmetic. -/

namespace Sys2Proof.Machine

theorem shl_eq (a : Int) (n : Nat) : shl a n = a * 2 ^ n := by simp [shl]

theorem floordiv_pos {a b : Int} (h : 0 ≤ b) : floordiv a b = a / b := by
  unfold floordiv
  exact Int.fdiv_eq_ediv_of_nonneg a h

theorem floordiv_neg_neg (a b : Int) : floordiv (-a) (-b) = floordiv a b := by
  unfold floordiv
  exact Int.neg_fdiv_neg a b

theorem floordiv_mul_cancel {b : Int} (h : b ≠ 0) (a : Int) : floordiv (a * b) b = a := by
  unfold floordiv
  exact Int.mul_fdiv_cancel a h

/-- A common factor leaves a floored quotient alone. -/
theorem floordiv_mul_left {c d : Int} (hc : c ≠ 0) (hd : 0 < d) (n : Int) :
    floordiv (c * n) (c * d) = n / d := by
  rcases lt_or_gt_of_ne hc with h | h
  · rw [← floordiv_neg_neg, ← neg_mul, ← neg_mul, floordiv_pos (mul_nonneg (by omega) hd.le),
      Int.mul_ediv_mul_of_pos _ _ (by omega)]
  · rw [floordiv_pos (mul_nonneg h.le hd.le), Int.mul_ediv_mul_of_pos _ _ h]

theorem rowOf_eq (v : Word) : rowOf v = v.toInt / 4096 := by simp [rowOf, asr, Config.fracBits]

theorem colOf_eq (v : Word) : colOf v = v.toInt / 4096 := by simp [colOf, asr, Config.fracBits]

theorem gridPoint_eq (n : Nat) : gridPoint n = (n : Int) * 4096 := by simp [gridPoint, shl, Config.fracBits]

/-- A value that fits 32 bits is held unchanged by a field (00_scope.md R10). -/
theorem toInt_wrap32 {v : Int} (h1 : -2 ^ 31 ≤ v) (h2 : v < 2 ^ 31) : (wrap32 v).toInt = v := by
  unfold wrap32
  rw [BitVec.toInt_ofInt]
  exact Int.bmod_eq_of_le (by simpa using h1) (by simpa using h2)

/-- A field written with its own value keeps it. -/
@[simp] theorem wrap32_toInt (w : Word) : wrap32 w.toInt = w := BitVec.ofInt_toInt

theorem toInt_bounds (w : Word) : -2 ^ 31 ≤ w.toInt ∧ w.toInt < 2 ^ 31 := by
  have h := BitVec.two_mul_toInt_lt (x := w)
  have h' := BitVec.le_two_mul_toInt (x := w)
  omega

theorem toInt_eq_zero_iff (w : Word) : w.toInt = 0 ↔ w = 0 := by
  constructor
  · intro h
    exact BitVec.eq_of_toInt_eq (by simpa using h)
  · rintro rfl; simp

theorem rowOf_mono {a b : Word} (h : a.toInt ≤ b.toInt) : rowOf a ≤ rowOf b := by
  rw [rowOf_eq, rowOf_eq]; omega

theorem colOf_mono {a b : Word} (h : a.toInt ≤ b.toInt) : colOf a ≤ colOf b := by
  rw [colOf_eq, colOf_eq]; omega

end Sys2Proof.Machine
end

