-- ==== Sys2Proof/Laws/Interpolator.lean ====
section
/-! SUPPORT. The position of a sample, what both kinds of arithmetic LERP give at it, and what the primitive
answers. -/

namespace Sys2Proof.Machine

/-! ## The position -/

/-- The offset lies in the range, and the range is not 0 (45_interpolator.md R401). -/
def Position.inside (q : Position) : Prop :=
  (0 < q.range ∧ 0 ≤ q.offset ∧ q.offset ≤ q.range) ∨ (q.range < 0 ∧ q.range ≤ q.offset ∧ q.offset ≤ 0)

theorem clampedOffset_pos {ca cb : Int} (h : ca < cb) (p : Int) :
    clampedOffset ca cb p = min (max (p - ca) 0) (cb - ca) := by
  simp only [clampedOffset, clamp]
  rw [if_pos (by omega)]

theorem clampedOffset_neg {ca cb : Int} (h : cb < ca) (p : Int) :
    clampedOffset ca cb p = min (max (p - ca) (cb - ca)) 0 := by
  simp only [clampedOffset, clamp]
  rw [if_neg (by omega)]

/-- t is clamped to [0, 1] (45_interpolator.md R401). -/
theorem position_inside {ca cb : Int} (h : ca ≠ cb) (p : Int) : (position ca cb p).inside := by
  unfold Position.inside
  rcases lt_or_gt_of_ne h with h | h
  · simp only [position, clampedOffset_pos h]; omega
  · simp only [position, clampedOffset_neg h]; omega

/-- A sample position at or outside the first end has offset 0 (45_interpolator.md R401). -/
theorem position_at_first {ca cb p : Int} (h : (ca < cb ∧ p ≤ ca) ∨ (cb < ca ∧ ca ≤ p)) :
    (position ca cb p).offset = 0 := by
  rcases h with ⟨h, hp⟩ | ⟨h, hp⟩
  · simp only [position, clampedOffset_pos h]; omega
  · simp only [position, clampedOffset_neg h]; omega

/-- A sample position at or outside the second end has the range as its offset (45_interpolator.md R401). -/
theorem position_at_second {ca cb p : Int} (h : (ca < cb ∧ cb ≤ p) ∨ (cb < ca ∧ p ≤ cb)) :
    (position ca cb p).offset = (position ca cb p).range := by
  rcases h with ⟨h, hp⟩ | ⟨h, hp⟩
  · simp only [position, clampedOffset_pos h]; omega
  · simp only [position, clampedOffset_neg h]; omega

/-! ## The reference arithmetic -/

theorem two_pow_pos (T : Nat) : (0 : Int) < 2 ^ T := by positivity

/-- The fraction lies from 0 to 1 (45_interpolator.md R410). -/
theorem fraction_bounds {q : Position} (h : q.inside) (T : Nat) : 0 ≤ fraction T q ∧ fraction T q ≤ 2 ^ T := by
  have hT := two_pow_pos T
  unfold fraction
  rw [shl_eq]
  rcases h with ⟨hr, h0, h1⟩ | ⟨hr, h1, h0⟩
  · rw [floordiv_pos hr.le]
    exact ⟨Int.ediv_nonneg (mul_nonneg h0 hT.le) hr.le, Int.ediv_le_of_le_mul hr (by nlinarith)⟩
  · rw [← floordiv_neg_neg, floordiv_pos (by omega), ← neg_mul]
    exact ⟨Int.ediv_nonneg (mul_nonneg (by omega) hT.le) (by omega),
      Int.ediv_le_of_le_mul (by omega) (by nlinarith)⟩

theorem fraction_first {q : Position} (h : q.offset = 0) (T : Nat) : fraction T q = 0 := by
  simp [fraction, h, shl_eq, floordiv]

theorem fraction_second {q : Position} (hi : q.inside) (h : q.offset = q.range) (T : Nat) :
    fraction T q = 2 ^ T := by
  rw [fraction, h, shl_eq, mul_comm, floordiv_mul_cancel (by unfold Position.inside at hi; omega)]

theorem weightedSum_eq (T : Nat) (a b t : Int) : weightedSum T a b t = a * (2 ^ T - t) + b * t := by
  simp [weightedSum, complement, shl_eq]

theorem weightedSum_same (T : Nat) (w t : Int) : weightedSum T w w t = w * 2 ^ T := by
  rw [weightedSum_eq]; ring

/-- The sum lies between the ends' (45_interpolator.md R409). -/
theorem weightedSum_between {T : Nat} {t : Int} (h0 : 0 ≤ t) (h1 : t ≤ 2 ^ T) (a b : Int) :
    min a b * 2 ^ T ≤ weightedSum T a b t ∧ weightedSum T a b t ≤ max a b * 2 ^ T := by
  have hu : 0 ≤ (2 : Int) ^ T - t := by omega
  rw [weightedSum_eq]
  constructor
  · nlinarith [mul_le_mul_of_nonneg_right (min_le_left a b) hu, mul_le_mul_of_nonneg_right (min_le_right a b) h0]
  · nlinarith [mul_le_mul_of_nonneg_right (le_max_left a b) hu, mul_le_mul_of_nonneg_right (le_max_right a b) h0]

theorem referenceLerp_eq (T : Nat) (a b : Int) (q : Position) :
    referenceLerp T a b q = (a * (2 ^ T - fraction T q) + b * fraction T q) / 2 ^ T := by
  rw [referenceLerp, weightedSum_eq, shl_eq, one_mul, floordiv_pos (two_pow_pos T).le]

theorem referenceLerp_between {q : Position} (h : q.inside) (T : Nat) (a b : Int) :
    min a b ≤ referenceLerp T a b q ∧ referenceLerp T a b q ≤ max a b := by
  have hT := two_pow_pos T
  obtain ⟨h0, h1⟩ := fraction_bounds h T
  obtain ⟨hl, hu⟩ := weightedSum_between h0 h1 a b
  rw [referenceLerp, shl_eq, one_mul, floordiv_pos hT.le]
  exact ⟨(Int.le_ediv_iff_mul_le hT).2 hl, Int.ediv_le_of_le_mul hT hu⟩

/-! ## A mean of two ends, of weights that add up -/

/-- A mean of weights of one sign, rounded down, lies between its ends. -/
theorem mean_between {u v d : Int} (hd : u + v = d) (h : (0 < d ∧ 0 ≤ u ∧ 0 ≤ v) ∨ (d < 0 ∧ u ≤ 0 ∧ v ≤ 0)) (a b : Int) :
    min a b ≤ floordiv (a * u + b * v) d ∧ floordiv (a * u + b * v) d ≤ max a b := by
  have pos : ∀ {u v d : Int}, u + v = d → 0 < d → 0 ≤ u → 0 ≤ v →
      min a b ≤ floordiv (a * u + b * v) d ∧ floordiv (a * u + b * v) d ≤ max a b := by
    intro u v d hd h0 hu hv
    rw [floordiv_pos h0.le]
    refine ⟨(Int.le_ediv_iff_mul_le h0).2 ?_, Int.ediv_le_of_le_mul h0 ?_⟩ <;> rw [← hd]
    · nlinarith [mul_le_mul_of_nonneg_right (min_le_left a b) hu, mul_le_mul_of_nonneg_right (min_le_right a b) hv]
    · nlinarith [mul_le_mul_of_nonneg_right (le_max_left a b) hu, mul_le_mul_of_nonneg_right (le_max_right a b) hv]
  rcases h with ⟨h, hu, hv⟩ | ⟨h, hu, hv⟩
  · exact pos hd h hu hv
  · have := pos (u := -u) (v := -v) (d := -d) (by omega) (by omega) (by omega) (by omega)
    rwa [show a * -u + b * -v = -(a * u + b * v) by ring, floordiv_neg_neg] at this

theorem sameSign_iff {aw bw : Int} : sameSign aw bw = true ↔ (0 < aw ∧ 0 < bw) ∨ (aw < 0 ∧ bw < 0) := by
  simp [sameSign]

/-- A mean of weights of one sign times depths of one sign, rounded down, lies between its ends; and its divisor is
not 0 (45_interpolator.md R409). -/
theorem depthMean_between {u v aw bw : Int} (h : sameSign aw bw = true)
    (hw : (0 < u + v ∧ 0 ≤ u ∧ 0 ≤ v) ∨ (u + v < 0 ∧ u ≤ 0 ∧ v ≤ 0)) (af bf : Int) :
    aw * u + bw * v ≠ 0 ∧
    min af bf ≤ floordiv (af * aw * u + bf * bw * v) (aw * u + bw * v) ∧
    floordiv (af * aw * u + bf * bw * v) (aw * u + bw * v) ≤ max af bf := by
  have key : (0 < aw * u + bw * v ∧ 0 ≤ aw * u ∧ 0 ≤ bw * v) ∨ (aw * u + bw * v < 0 ∧ aw * u ≤ 0 ∧ bw * v ≤ 0) := by
    rcases sameSign_iff.1 h with ⟨ha, hb⟩ | ⟨ha, hb⟩ <;> rcases hw with ⟨hd, hu, hv⟩ | ⟨hd, hu, hv⟩
    · left; exact ⟨by nlinarith [mul_nonneg hu ha.le], mul_nonneg ha.le hu, mul_nonneg hb.le hv⟩
    · right; exact ⟨by nlinarith, by nlinarith, by nlinarith⟩
    · right; exact ⟨by nlinarith, by nlinarith, by nlinarith⟩
    · left; exact ⟨by nlinarith, by nlinarith, by nlinarith⟩
  refine ⟨by omega, ?_⟩
  rw [mul_assoc, mul_assoc]
  exact mean_between rfl key af bf

theorem fraction_weights {q : Position} (h : q.inside) (T : Nat) :
    0 < (2 ^ T - fraction T q) + fraction T q ∧ 0 ≤ 2 ^ T - fraction T q ∧ 0 ≤ fraction T q := by
  have := fraction_bounds h T
  have := two_pow_pos T
  omega

theorem position_weights {q : Position} (h : q.inside) :
    (0 < (q.range - q.offset) + q.offset ∧ 0 ≤ q.range - q.offset ∧ 0 ≤ q.offset) ∨
    ((q.range - q.offset) + q.offset < 0 ∧ q.range - q.offset ≤ 0 ∧ q.offset ≤ 0) := by
  unfold Position.inside at h; omega

/-! ## Any other arithmetic -/

theorem exactSum_same (w : Int) (q : Position) : exactSum w w q = w * q.range := by
  rw [exactSum]; ring

theorem exactLerp_between {q : Position} (h : q.inside) (a b : Int) :
    min a b ≤ exactLerp a b q ∧ exactLerp a b q ≤ max a b := by
  have := position_weights h
  exact mean_between (by ring) (by omega) a b

theorem clamp_of_mem {v lo hi : Int} (h : lo ≤ v) (h' : v ≤ hi) : clamp v lo hi = v := by
  unfold clamp; omega

theorem clamp_between {v lo hi : Int} (h : lo ≤ hi) : lo ≤ clamp v lo hi ∧ clamp v lo hi ≤ hi := by
  unfold clamp; omega

/-- Whatever value an arithmetic gives, within the slack, is some error's. -/
theorem near_of_mem {v x : Int} {slack : Nat} (h : |x - v| ≤ slack) : near v slack (x - v) = x := by
  rw [abs_le] at h
  rw [near, clamp_of_mem h.1 h.2]; ring

/-- The value of a linear interpolation that meets the laws is left alone: no lawful arithmetic is shut out. -/
theorem lawfulLinear_of_lawful {a b v : Int} {q : Position} (h0 : q.offset = 0 → v = a)
    (h1 : q.offset = q.range → v = b) (hb : min a b ≤ v ∧ v ≤ max a b) : lawfulLinear a b q v = v := by
  unfold lawfulLinear
  split_ifs with h h'
  · exact (h0 h).symm
  · exact (h1 h').symm
  · exact clamp_of_mem hb.1 hb.2

/-- The value of an attribute that meets the laws is left alone: no lawful arithmetic is shut out. -/
theorem lawfulAttribute_of_lawful {af aw bf bw linear v : Int} {q : Position} (h0 : q.offset = 0 → v = af)
    (h1 : q.offset = q.range → v = bf) (he : aw = bw → v = linear)
    (hb : sameSign aw bw = true → min af bf ≤ v ∧ v ≤ max af bf) : lawfulAttribute af aw bf bw q linear v = v := by
  unfold lawfulAttribute
  split_ifs with h h' h'' hs
  · exact (h0 h).symm
  · exact (h1 h').symm
  · exact (he h'').symm
  · exact clamp_of_mem (hb hs).1 (hb hs).2
  · rfl

/-- Bringing a value to the laws takes it no further from a value between the same ends. -/
theorem abs_clamp_near_sub_le {v lo hi error : Int} {slack : Nat} (hl : lo ≤ v) (hh : v ≤ hi) :
    |clamp (near v slack error) lo hi - v| ≤ slack := by
  rw [abs_le]
  simp only [near, clamp]
  omega

/-! ## The arithmetic LERP: what holds of every one -/

/-- At the first end linear interpolation gives the first value (45_interpolator.md section 1). -/
theorem lerp_first {q : Position} (h : q.offset = 0) (L : Interpolation) (a b : Int) : lerp L a b q = a := by
  cases hl : L.lerp with
  | reference =>
    simp only [lerp, hl, referenceLerp_eq, fraction_first h, sub_zero, mul_zero, add_zero]
    exact Int.mul_ediv_cancel _ (two_pow_pos _).ne'
  | other k s s' => simp [lerp, hl, lawfulLinear, h]

/-- At the second end linear interpolation gives the second value (45_interpolator.md section 1). -/
theorem lerp_second {q : Position} (hi : q.inside) (h : q.offset = q.range) (L : Interpolation) (a b : Int) :
    lerp L a b q = b := by
  have hr : q.range ≠ 0 := by unfold Position.inside at hi; omega
  cases hl : L.lerp with
  | reference =>
    simp only [lerp, hl, referenceLerp_eq, fraction_second hi h, sub_self, mul_zero, zero_add]
    exact Int.mul_ediv_cancel _ (two_pow_pos _).ne'
  | other k s s' => simp [lerp, hl, lawfulLinear, h, hr]

/-- Linear interpolation stays between its ends (45_interpolator.md R409). -/
theorem lerp_between {q : Position} (h : q.inside) (L : Interpolation) (a b : Int) :
    min a b ≤ lerp L a b q ∧ lerp L a b q ≤ max a b := by
  unfold lerp
  split
  · exact referenceLerp_between h _ a b
  · unfold lawfulLinear
    split_ifs
    · omega
    · omega
    · exact clamp_between (by omega)

/-- Linear interpolation of two equal values is that value. -/
theorem lerp_same {q : Position} (h : q.inside) (L : Interpolation) (w : Int) : lerp L w w q = w := by
  have := lerp_between h L w w
  omega

/-- Linear interpolation of another arithmetic is within its slack of the exact one, rounded down
(45_interpolator.md R402, log 2). -/
theorem lerp_slack {L : Interpolation} {k s s' : Nat} (hl : L.lerp = .other k s s') {q : Position} (h : q.inside)
    (a b : Int) : |lerp L a b q - exactLerp a b q| ≤ s := by
  obtain ⟨h1, h2⟩ := exactLerp_between h a b
  have hr : q.range ≠ 0 := by unfold Position.inside at h; omega
  simp only [lerp, hl, lawfulLinear]
  split_ifs with h0 h0'
  · simp [exactLerp, exactSum, h0, floordiv_mul_cancel hr]
  · simp [exactLerp, exactSum, h0', floordiv_mul_cancel hr]
  · exact abs_clamp_near_sub_le h1 h2

/-- Linear interpolation between two fields fits a field, so its wrap does not show (45_interpolator.md R402). -/
theorem toInt_wrap32_lerp {q : Position} (h : q.inside) (L : Interpolation) (a b : Word) :
    (wrap32 (lerp L a.toInt b.toInt q)).toInt = lerp L a.toInt b.toInt q := by
  obtain ⟨l, u⟩ := lerp_between h L a.toInt b.toInt
  have := toInt_bounds a
  have := toInt_bounds b
  apply toInt_wrap32 <;> omega

/-- At the first end the divisor is 0 exactly where the first depth is (45_interpolator.md R406). -/
theorem zeroDivisor_first {q : Position} (h : q.offset = 0) (L : Interpolation) (aw bw : Int) :
    zeroDivisor L aw bw q = decide (aw = 0) := by
  have hT := (two_pow_pos L.tFracBits).ne'
  unfold zeroDivisor
  split
  · simp [weightedSum_eq, fraction_first h, hT]
  · rw [if_pos (.inl h), lerp_first h]

/-- At the second end the divisor is 0 exactly where the second depth is (45_interpolator.md R406). -/
theorem zeroDivisor_second {q : Position} (hi : q.inside) (h : q.offset = q.range) (L : Interpolation) (aw bw : Int) :
    zeroDivisor L aw bw q = decide (bw = 0) := by
  have hT := (two_pow_pos L.tFracBits).ne'
  unfold zeroDivisor
  split
  · simp [weightedSum_eq, fraction_second hi h, hT]
  · rw [if_pos (.inr (.inl h)), lerp_second hi h]

/-- Between equal depths the divisor is 0 exactly where they are (45_interpolator.md R405). -/
theorem zeroDivisor_same {q : Position} (hi : q.inside) (L : Interpolation) (w : Int) :
    zeroDivisor L w w q = decide (w = 0) := by
  have hT := (two_pow_pos L.tFracBits).ne'
  unfold zeroDivisor
  split
  · simp [weightedSum_same, hT]
  · rw [if_pos (.inr (.inr rfl)), lerp_same hi]

/-- Depths of one sign have no zero divisor (45_interpolator.md R409). -/
theorem zeroDivisor_of_sameSign {q : Position} (hi : q.inside) {aw bw : Int} (h : sameSign aw bw = true)
    (L : Interpolation) : zeroDivisor L aw bw q = false := by
  unfold zeroDivisor
  split
  · rw [weightedSum_eq]
    exact decide_eq_false (depthMean_between h (.inl (fraction_weights hi _)) 0 0).1
  · have := lerp_between hi L aw bw
    have hs := sameSign_iff.1 h
    simp only [h]
    split_ifs
    · exact decide_eq_false (by omega)
    · rfl

/-- At the first end an attribute is the first end's, where its depth is not 0 (45_interpolator.md R406). -/
theorem quotient_first {q : Position} (h : q.offset = 0) {aw : Int} (hw : aw ≠ 0) (L : Interpolation) (n : Nat)
    (af bf bw : Int) : quotient L n af aw bf bw q = af := by
  unfold quotient
  split
  · simp only [referenceAttribute, weightedSum_eq, fraction_first h, sub_zero, mul_zero, add_zero, mul_assoc]
    exact floordiv_mul_cancel (mul_ne_zero hw (two_pow_pos _).ne') af
  · simp [lawfulAttribute, h]

/-- At the second end an attribute is the second end's, where its depth is not 0 (45_interpolator.md R406). -/
theorem quotient_second {q : Position} (hi : q.inside) (h : q.offset = q.range) {bw : Int} (hw : bw ≠ 0)
    (L : Interpolation) (n : Nat) (af aw bf : Int) : quotient L n af aw bf bw q = bf := by
  have hr : q.range ≠ 0 := by unfold Position.inside at hi; omega
  unfold quotient
  split
  · simp only [referenceAttribute, weightedSum_eq, fraction_second hi h, sub_self, mul_zero, zero_add, mul_assoc]
    exact floordiv_mul_cancel (mul_ne_zero hw (two_pow_pos _).ne') bf
  · simp [lawfulAttribute, h, hr]

/-- Between equal depths that are not 0 an attribute is interpolated linearly (45_interpolator.md R405). -/
theorem quotient_same {q : Position} (hi : q.inside) {w : Int} (hw : w ≠ 0) (L : Interpolation) (n : Nat)
    (af bf : Int) : quotient L n af w bf w q = lerp L af bf q := by
  cases hl : L.lerp with
  | reference =>
    simp only [quotient, lerp, hl, referenceAttribute, weightedSum_same, referenceLerp_eq]
    rw [weightedSum_eq, show af * w * (2 ^ L.tFracBits - fraction L.tFracBits q) + bf * w * fraction L.tFracBits q =
      w * (af * (2 ^ L.tFracBits - fraction L.tFracBits q) + bf * fraction L.tFracBits q) by ring,
      floordiv_mul_left hw (two_pow_pos _)]
  | other k s s' =>
    simp only [quotient, hl, lawfulAttribute]
    split_ifs with h h'
    · exact (lerp_first h L af bf).symm
    · exact (lerp_second hi h' L af bf).symm
    · rfl

/-- Between depths of one sign an attribute lies between its ends (45_interpolator.md R409). -/
theorem quotient_between {q : Position} (hi : q.inside) {aw bw : Int} (h : sameSign aw bw = true) (L : Interpolation)
    (n : Nat) (af bf : Int) : min af bf ≤ quotient L n af aw bf bw q ∧ quotient L n af aw bf bw q ≤ max af bf := by
  unfold quotient
  split
  · rw [referenceAttribute, weightedSum_eq, weightedSum_eq]
    exact (depthMean_between h (.inl (fraction_weights hi _)) af bf).2
  · unfold lawfulAttribute
    split_ifs
    · omega
    · omega
    · exact lerp_between hi L af bf
    · exact clamp_between (by omega)

/-- An attribute of another arithmetic is within its slacks of the exact quotient, rounded down
(45_interpolator.md R403, log 2). -/
theorem quotient_slack {L : Interpolation} {k s s' : Nat} (hl : L.lerp = .other k s s') {q : Position} (hi : q.inside)
    {aw bw : Int} (hD : exactSum aw bw q ≠ 0) (n : Nat) (af bf : Int) :
    |quotient L n af aw bf bw q - floordiv (exactSum (af * aw) (bf * bw) q) (exactSum aw bw q)| ≤ max s s' := by
  have hr : q.range ≠ 0 := by unfold Position.inside at hi; omega
  simp only [quotient, hl, lawfulAttribute, approximateAttribute, if_neg hD]
  split_ifs with h0 h1 he hs
  · simp only [exactSum, h0, sub_zero, mul_zero, add_zero, mul_assoc] at hD ⊢
    simp [floordiv_mul_cancel hD]
  · simp only [exactSum, h1, sub_self, mul_zero, zero_add, mul_assoc] at hD ⊢
    simp [floordiv_mul_cancel hD]
  · subst he
    have hs := lerp_slack hl hi af bf
    have hw : aw ≠ 0 := by rintro rfl; simp [exactSum] at hD
    have hq : floordiv (exactSum (af * aw) (bf * aw) q) (exactSum aw aw q) = exactLerp af bf q := by
      rw [exactSum_same, exactLerp,
        show exactSum (af * aw) (bf * aw) q = aw * exactSum af bf q by simp only [exactSum]; ring]
      rcases lt_or_gt_of_ne hr with hr | hr
      · rw [← floordiv_neg_neg, ← floordiv_neg_neg (exactSum af bf q), ← mul_neg, ← mul_neg,
          floordiv_mul_left hw (by omega), floordiv_pos (by omega)]
      · rw [floordiv_mul_left hw hr, floordiv_pos hr.le]
    rw [hq]
    exact hs.trans (by exact_mod_cast le_max_left s s')
  · have hb := (depthMean_between hs (position_weights hi) af bf).2
    exact (abs_clamp_near_sub_le hb.1 hb.2).trans (by exact_mod_cast le_max_right s s')
  · rw [abs_le]
    simp only [near, clamp]
    omega

/-! ## The primitive -/

/-- Where the divisor is not 0 an attribute is the quotient (45_interpolator.md R403). -/
theorem perspective_of_ne {L : Interpolation} {A B : Endpoint} {q : Position}
    (h : zeroDivisor L A.w.toInt B.w.toInt q = false) (f : Endpoint → Word) (n k : Nat) :
    perspective L A B f n q k = wrap32 (quotient L n (f A).toInt A.w.toInt (f B).toInt B.w.toInt q) := by
  simp [perspective, h]

/-- Where the divisor is 0 an attribute is its free value (45_interpolator.md R408). -/
theorem perspective_of_eq {L : Interpolation} {A B : Endpoint} {q : Position}
    (h : zeroDivisor L A.w.toInt B.w.toInt q = true) (f : Endpoint → Word) (n k : Nat) :
    perspective L A B f n q k = Config.freeAttribute (k + n) := by
  simp [perspective, h]

/-- Everything the primitive can answer (45_interpolator.md R404, R410). -/
theorem interp_of_ne {ca cb : Int} (h : ca ≠ cb) (L : Interpolation) (A B : Endpoint) (p : Int) (k : Nat) :
    interp L A B ca cb p k =
      (some (sampleAt L A B (position ca cb p) k), k + drawsOf L A B (position ca cb p)) := by
  unfold interp
  rw [if_neg (by omega)]

theorem interp_of_eq {ca cb : Int} (h : ca = cb) (L : Interpolation) (A B : Endpoint) (p : Int) (k : Nat) :
    interp L A B ca cb p k = (none, k) := by
  unfold interp
  rw [if_pos (by omega)]

/-- An edge that is not of zero height is sampled (45_interpolator.md R420). -/
theorem sampleEdge_of_ne {e : Edge} (h : e.y0 ≠ e.y1) (L : Interpolation) (y k : Nat) :
    ∃ ep k', sampleEdge L e y k = (some ep, k') :=
  ⟨_, _, interp_of_ne (fun h' => h (BitVec.eq_of_toInt_eq h')) L _ _ _ k⟩

end Sys2Proof.Machine
end

