-- ==== Sys2Proof/Laws/Sorting.lean ====
section
/-! SUPPORT. The two sorts: permutation, order and stability. -/

namespace Sys2Proof.Machine

section Generic

variable {α : Type} (r : α → α → Prop) [DecidableRel r]

/-- Inserting an element of a class whose members are all related puts it before the others of its class. -/
theorem filter_orderedInsert {q : α → Bool} (hq : ∀ a b, q a = true → q b = true → r a b) (a : α)
    (l : List α) : (l.orderedInsert r a).filter q = (a :: l).filter q := by
  induction l with
  | nil => rfl
  | cons b l ih =>
    rw [List.orderedInsert_cons]
    split
    · rfl
    · rename_i hab
      rw [List.filter_cons, ih]
      by_cases ha : q a = true
      · have hb : q b = false := by
          by_contra hb
          exact hab (hq a b ha (by simpa using hb))
        simp [ha, hb]
      · simp [ha, List.filter_cons]

/-- Insertion sort is stable: the members of a class keep their order. -/
theorem filter_insertionSort {q : α → Bool} (hq : ∀ a b, q a = true → q b = true → r a b) (l : List α) :
    (l.insertionSort r).filter q = l.filter q := by
  induction l with
  | nil => rfl
  | cons a l ih =>
    rw [List.insertionSort_cons, filter_orderedInsert r hq, List.filter_cons, List.filter_cons, ih]

/-- A list in order is left alone. -/
theorem insertionSort_of_pairwise {l : List α} (h : l.Pairwise r) : l.insertionSort r = l := by
  induction l with
  | nil => rfl
  | cons a l ih =>
    rw [List.insertionSort_cons, ih h.of_cons]
    cases l with
    | nil => rfl
    | cons b l =>
      rw [List.orderedInsert_cons, if_pos (List.rel_of_pairwise_cons h List.mem_cons_self)]

end Generic

theorem edgeBefore_iff {a b : Edge} : edgeBefore a b = true ↔
    b.y0.toInt < a.y0.toInt ∨ (a.y0.toInt = b.y0.toInt ∧ b.y1.toInt ≤ a.y1.toInt) := by
  simp [edgeBefore]

theorem spanBefore_iff {a b : Span} : spanBefore a b = true ↔
    b.ep0.x.toInt < a.ep0.x.toInt ∨ (a.ep0.x.toInt = b.ep0.x.toInt ∧ b.ep0.w.toInt ≤ a.ep0.w.toInt) := by
  simp [spanBefore]

theorem edgeBefore_total (a b : Edge) : edgeBefore a b = true ∨ edgeBefore b a = true := by
  simp only [edgeBefore_iff]; omega

theorem edgeBefore_trans {a b c : Edge} (h : edgeBefore a b = true) (h' : edgeBefore b c = true) :
    edgeBefore a c = true := by
  simp only [edgeBefore_iff] at *; omega

theorem spanBefore_total (a b : Span) : spanBefore a b = true ∨ spanBefore b a = true := by
  simp only [spanBefore_iff]; omega

theorem spanBefore_trans {a b c : Span} (h : spanBefore a b = true) (h' : spanBefore b c = true) :
    spanBefore a c = true := by
  simp only [spanBefore_iff] at *; omega

/-- Whatever the tie order, the list arranged for the sort holds the same records. -/
theorem arrange_perm {α : Type} (o : TieOrder) (rank : Nat → List α → Nat → Nat) (l : List α) :
    (arrange o rank l).Perm l := by
  unfold arrange
  split
  · exact List.Perm.refl l
  · refine ((List.perm_insertionSort _ l.zipIdx).map Prod.fst).trans ?_
    rw [List.zipIdx_map_fst]

/-- Sorting keeps the edges (42_edge_table.md R250). -/
theorem sortEdges_perm (o : TieOrder) (l : List Edge) : (sortEdges o l).Perm l :=
  (List.perm_insertionSort _ _).trans (arrange_perm o _ l)

/-- The sorted edge table is sorted, whatever the tie order (42_edge_table.md R250). -/
theorem sortEdges_sorted (o : TieOrder) (l : List Edge) :
    (sortEdges o l).Pairwise (fun a b => edgeBefore a b = true) := by
  have : Std.Total (fun a b : Edge => edgeBefore a b = true) := ⟨edgeBefore_total⟩
  have : IsTrans Edge (fun a b => edgeBefore a b = true) := ⟨fun _ _ _ => edgeBefore_trans⟩
  exact List.pairwise_insertionSort _ _

/-- Sorting keeps the spans (44_depth_resolver.md R350). -/
theorem sortSpans_perm (o : TieOrder) (l : List Span) : (sortSpans o l).Perm l :=
  (List.perm_insertionSort _ _).trans (arrange_perm o _ l)

/-- The sorted span table is sorted, whatever the tie order (44_depth_resolver.md R350). -/
theorem sortSpans_sorted (o : TieOrder) (l : List Span) :
    (sortSpans o l).Pairwise (fun a b => spanBefore a b = true) := by
  have : Std.Total (fun a b : Span => spanBefore a b = true) := ⟨spanBefore_total⟩
  have : IsTrans Span (fun a b => spanBefore a b = true) := ⟨fun _ _ _ => spanBefore_trans⟩
  exact List.pairwise_insertionSort _ _

@[simp] theorem mem_sortEdges {o : TieOrder} {e : Edge} {l : List Edge} : e ∈ sortEdges o l ↔ e ∈ l :=
  (sortEdges_perm o l).mem_iff

@[simp] theorem mem_sortSpans {o : TieOrder} {s : Span} {l : List Span} : s ∈ sortSpans o l ↔ s ∈ l :=
  (sortSpans_perm o l).mem_iff

@[simp] theorem length_sortEdges (o : TieOrder) (l : List Edge) : (sortEdges o l).length = l.length :=
  (sortEdges_perm o l).length_eq

@[simp] theorem sortEdges_nil (o : TieOrder) : sortEdges o [] = [] := (sortEdges_perm o []).eq_nil

@[simp] theorem sortSpans_nil (o : TieOrder) : sortSpans o [] = [] := (sortSpans_perm o []).eq_nil

/-- A sorted edge table is left alone by the stable sort. -/
theorem sortEdges_of_sorted {l : List Edge} (h : l.Pairwise (fun a b => edgeBefore a b = true)) :
    sortEdges .stable l = l := insertionSort_of_pairwise _ h

end Sys2Proof.Machine
end

