-- ==== Sys2Proof/Laws/DepthResolver.lean ====
section
/-! SUPPORT. What a span sample, the retirement of spans, Pick and the column sweep can do. -/

namespace Sys2Proof.Machine

theorem covers_iff {X : Nat} {s : Span} :
    covers X s = true ↔ colOf s.ep0.x ≤ (X : Int) ∧ (X : Int) ≤ colOf s.ep1.x := by
  simp [covers]

theorem endsBefore_iff {X : Nat} {s : Span} : endsBefore X s = true ↔ colOf s.ep1.x < (X : Int) := by
  simp [endsBefore]

/-- A span of some width has a sample, whose depth is its depth term (45_interpolator.md R421). -/
theorem sampleSpan_of_ne {s : Span} (h : s.ep0.x ≠ s.ep1.x) (L : Interpolation) (X k : Nat) :
    ∃ e k', sampleSpan L s X k = (some e, k') ∧ e.w = spanDepth L X s :=
  ⟨_, _, interp_of_ne (fun h' => h (BitVec.eq_of_toInt_eq h')) L _ _ _ k, rfl⟩

/-- A span of zero width samples as `NoWrite` (44_depth_resolver.md R355, 45_interpolator.md R404). -/
theorem sampleSpan_of_eq {s : Span} (h : s.ep0.x = s.ep1.x) (L : Interpolation) (X k : Nat) : sampleSpan L s X k = (none, k) :=
  interp_of_eq (by rw [h]) L _ _ _ k

/-! ## Retirement of spans -/

theorem retireSpans_sublist (X : Nat) (st : List Span) : (retireSpans X st).Sublist st :=
  (List.rdropWhile_prefix _ st).sublist

/-- Retirement cuts a tail of spans that all end left of the column (44_depth_resolver.md R353). -/
theorem retireSpans_split (X : Nat) (st : List Span) :
    ∃ post, st = retireSpans X st ++ post ∧ ∀ s ∈ post, endsBefore X s = true := by
  unfold retireSpans List.rdropWhile
  refine ⟨(st.reverse.takeWhile (endsBefore X)).reverse, ?_, ?_⟩
  · rw [← List.reverse_append, List.takeWhile_append_dropWhile, List.reverse_reverse]
  · intro s hs
    rw [List.mem_reverse] at hs
    exact List.mem_takeWhile_imp hs

/-! ## Pick -/

/-- Pick's loop does not read the spans at or above its index. -/
theorem pickLoop_append (L : Interpolation) (X : Nat) (st post : List Span) {j : Nat} (hj : j ≤ st.length)
    (best : Option (Nat × Word)) (k : Nat) : pickLoop L X (st ++ post) j best k = pickLoop L X st j best k := by
  induction j generalizing best k with
  | zero => rfl
  | succ j ih =>
    have ih' := fun best k => ih (by omega) best k
    unfold pickLoop
    rw [List.getElem?_append_left (by omega)]
    simp only [ih']

/-- The winner Pick names is a span of the table (44_depth_resolver.md R354). -/
theorem pickLoop_index {L : Interpolation} {X : Nat} {st : List Span} {N j : Nat} (hj : j ≤ N) {best : Option (Nat × Word)} {k : Nat}
    (hb : ∀ b w, best = some (b, w) → b < N) :
    ∀ b w, (pickLoop L X st j best k).1 = some (b, w) → b < N := by
  induction j generalizing best k with
  | zero => exact hb
  | succ j ih =>
    unfold pickLoop
    split
    · exact ih (by omega) hb
    · split
      · exact hb
      · split
        · exact ih (by omega) hb
        · split
          · exact ih (by omega) hb
          · refine ih (by omega) fun b w h => ?_
            unfold better at h
            split at h
            · cases h; omega
            · split at h <;> cases h
              · omega
              · exact hb _ _ rfl

theorem pick_index {L : Interpolation} {X : Nat} {st : List Span} {k b : Nat} {w : Word} (h : (pick L X st k).1 = some (b, w)) :
    b < st.length :=
  pickLoop_index (le_refl _) (by simp) b w h

/-! ## The column sweep -/

/-- A column's cell is written, with a color or with `Unwritten` (44_depth_resolver.md R358). -/
theorem resolveCell_written (L : Interpolation) (X : Nat) (st : List Span) (k : Nat) :
    (resolveCell L X st k).1.isWritten = true := by
  unfold resolveCell shade
  split
  · rfl
  · split
    · rfl
    · split <;> rfl

@[simp] theorem length_resolveFrom (L : Interpolation) (n X : Nat) (st : List Span) (k : Nat) :
    (resolveFrom L n X st k).row.length = n := by
  induction n generalizing X st k with
  | zero => rfl
  | succ n ih => simp [resolveFrom, ih]

theorem resolveFrom_written (L : Interpolation) (n X : Nat) (st : List Span) (k : Nat) :
    ∀ c ∈ (resolveFrom L n X st k).row, c.isWritten = true := by
  induction n generalizing X st k with
  | zero => simp [resolveFrom]
  | succ n ih =>
    intro c hc
    simp only [resolveFrom, List.mem_cons] at hc
    rcases hc with rfl | hc
    · exact resolveCell_written _ _ _ _
    · exact ih _ _ _ c hc

/-- The span table a sweep leaves holds only spans of the table it was given. -/
theorem resolveFrom_sublist (L : Interpolation) (n X : Nat) (st : List Span) (k : Nat) :
    (resolveFrom L n X st k).st.Sublist st := by
  induction n generalizing X st k with
  | zero => exact List.Sublist.refl _
  | succ n ih => exact (ih _ _ _).trans (retireSpans_sublist X st)

/-- With no spans every cell is `Unwritten` (44_depth_resolver.md R358). -/
theorem resolveFrom_nil (L : Interpolation) (n X k : Nat) : (resolveFrom L n X [] k).row = List.replicate n .unwritten := by
  induction n generalizing X k with
  | zero => rfl
  | succ n ih =>
    simp only [resolveFrom, retireSpans, List.rdropWhile_nil, ih]
    rfl

/-- A row written by a DRAW is no row of Unknown cells, where a row has a cell. -/
theorem ne_unknownRow_of_written {p : Params} (h : 0 < p.width) {r : Row} (hr : ∀ c ∈ r, c.isWritten = true) :
    r ≠ unknownRow p := by
  rintro rfl
  have := hr Cell.unknown (List.mem_replicate.2 ⟨by omega, rfl⟩)
  cases this

end Sys2Proof.Machine
end

