-- ==== Sys2Proof/Laws/EdgeBuilder.lean ====
section
/-! SUPPORT. What the edges SUBMIT builds are: their number, their owners and their orientation. -/

namespace Sys2Proof.Machine

theorem makeEdge_poly (p : Nat) (a b : Vertex) : (makeEdge p a b).poly = p := by
  unfold makeEdge; split <;> rfl

theorem makeEdge_oriented (p : Nat) (a b : Vertex) : (makeEdge p a b).oriented := by
  unfold makeEdge
  split <;> simp [Edge.oriented] <;> omega

@[simp] theorem length_polygonEdges (vertex : Nat → Vertex) (p : Nat) (r : Polygon) :
    (polygonEdges vertex p r).length = r.n := by
  simp [polygonEdges]

/-- Every edge built is some side of a polygon below N (41_edge_builder.md R200). -/
theorem mem_buildEdges {m : Memory} {k n : Nat} {e : Edge} (h : e ∈ buildEdges m k n) :
    ∃ p < n, ∃ a b, e = makeEdge p a b := by
  rw [buildEdges, List.mem_flatMap] at h
  obtain ⟨p, hp, he⟩ := h
  rw [polygonEdges, List.mem_map] at he
  obtain ⟨i, -, rfl⟩ := he
  exact ⟨p, List.mem_range.1 hp, _, _, rfl⟩

/-- Polygons of at most four sides build at most four edges each (41_edge_builder.md R206). -/
theorem length_buildEdges_le {m : Memory} {k n : Nat} (h : ∀ q < n, (readPolygon m k q).n ≤ 4) :
    (buildEdges m k n).length ≤ n * 4 := by
  induction n with
  | zero => simp [buildEdges]
  | succ n ih =>
    have h1 := ih fun q hq => h q (by omega)
    have h2 := h n (by omega)
    simp only [buildEdges, List.range_succ, List.flatMap_append, List.length_append, List.flatMap_cons,
      List.flatMap_nil, List.append_nil, length_polygonEdges] at h1 ⊢
    omega

theorem polygonAdmitted_iff {s : State} {q : Nat} :
    polygonAdmitted s q ↔ polygonCheck s.params (readPolygon s.mem s.draws q) = none :=
  polygonCheck_none_iff.symm

end Sys2Proof.Machine
end

