-- ==== Sys2Proof/Laws/PerInstr.lean ====
section
/-! SUPPORT. Facts about every command as syntax. -/

namespace Sys2Proof.Laws.EncodingFields

/-- The opcode of a command (30_encoding.md R152). -/
def opcodeOf : Instr → Nat
  | .init => 1
  | .reset => 2
  | .deinit => 3
  | .submit _ => 4
  | .draw _ => 5
  | .read _ => 6

/-- The operand of a command, 0 where it has none (30_encoding.md R152, R153). -/
def operandOf : Instr → Nat
  | .init => 0
  | .reset => 0
  | .deinit => 0
  | .submit n => n
  | .draw y => y
  | .read y => y

/-- The encoding of a command carries its opcode in OPC, zero in RSV, and its operand, as far as 16 bits hold
it, in IMM (30_encoding.md R151, R152). -/
def Statement (i : Instr) : Prop :=
  opcField (encode i) = opcodeOf i ∧ rsvField (encode i) = 0 ∧ immField (encode i) = operandOf i % 65536

theorem init : Statement .init := commandWord_fields 1 0 0

theorem reset : Statement .reset := commandWord_fields 2 0 0

theorem deinit : Statement .deinit := commandWord_fields 3 0 0

theorem submit (n : Nat) : Statement (.submit n) := by
  simpa [Statement, encode, opcodeOf, operandOf] using commandWord_fields 4 0 (BitVec.ofNat 16 n)

theorem draw (y : Nat) : Statement (.draw y) := by
  simpa [Statement, encode, opcodeOf, operandOf] using commandWord_fields 5 0 (BitVec.ofNat 16 y)

theorem read (y : Nat) : Statement (.read y) := by
  simpa [Statement, encode, opcodeOf, operandOf] using commandWord_fields 6 0 (BitVec.ofNat 16 y)

end Sys2Proof.Laws.EncodingFields
end

