-- ==== Sys2Proof/Laws/SpanAssembler.lean ====
section
/-! SUPPORT. The walk by index is a fold over the edges from the tail: the expired edges leave the table, and
the active ones are assembled in order. -/

namespace Sys2Proof.Machine

theorem placeEndpoint_of_none {p : Nat} {sw : Sweep} (h : Space.get sw.bk p = none) (ep : Endpoint) :
    placeEndpoint p ep sw = openSpan p ep sw := by
  simp [placeEndpoint, h]

theorem placeEndpoint_of_some {p k : Nat} {sw : Sweep} (h : Space.get sw.bk p = some k) (ep : Endpoint) :
    placeEndpoint p ep sw = closeSpan p k ep sw := by
  simp [placeEndpoint, h]

theorem placeEndpoint_with_et (p : Nat) (ep : Endpoint) (sw : Sweep) (l : List Edge) :
    placeEndpoint p ep { sw with et := l } = { placeEndpoint p ep sw with et := l } := by
  cases h : Space.get sw.bk p with
  | none => rw [placeEndpoint_of_none h, placeEndpoint_of_none (by exact h)]; rfl
  | some k => rw [placeEndpoint_of_some h, placeEndpoint_of_some (by exact h)]; rfl

theorem assembleEdge_of_eq {e : Edge} (h : e.y0 = e.y1) (L : Interpolation) (y : Nat) (sw : Sweep) :
    assembleEdge L y e sw = sw := by
  simp [assembleEdge, h]

/-- An ACTIVE edge that is not of zero height places its sample (43_span_assembler.md R301). -/
theorem assembleEdge_of_ne {e : Edge} (h : e.y0 ≠ e.y1) {L : Interpolation} {y : Nat} {sw : Sweep} {ep : Endpoint} {k : Nat}
    (hs : sampleEdge L e y sw.draws = (some ep, k)) :
    assembleEdge L y e sw = placeEndpoint e.poly ep { sw with draws := k } := by
  simp [assembleEdge, h, hs]

/-- Assembling an edge does not read the edge table. -/
theorem assembleEdge_with_et (L : Interpolation) (y : Nat) (e : Edge) (sw : Sweep) (l : List Edge) :
    assembleEdge L y e { sw with et := l } = { assembleEdge L y e sw with et := l } := by
  by_cases h : e.y0 = e.y1
  · rw [assembleEdge_of_eq h, assembleEdge_of_eq h]
  · obtain ⟨ep, k, hs⟩ := sampleEdge_of_ne h L y sw.draws
    rw [assembleEdge_of_ne h hs, assembleEdge_of_ne (sw := { sw with et := l }) h hs]
    exact placeEndpoint_with_et e.poly ep { sw with draws := k } l

/-- Assembling an edge does not touch the edge table. -/
theorem assembleEdge_et (L : Interpolation) (y : Nat) (e : Edge) (sw : Sweep) : (assembleEdge L y e sw).et = sw.et := by
  have h := congrArg Sweep.et (assembleEdge_with_et L y e sw sw.et)
  exact h

/-- What the walk does with one edge `e`, the edge table behind it already walked. -/
def visit (L : Interpolation) (y : Nat) (e : Edge) (sw : Sweep) : Sweep :=
  match classify e y with
  | .expired => sw
  | .notYet => { sw with et := e :: sw.et }
  | .active => assembleEdge L y e { sw with et := e :: sw.et }

/-- The step of the walk at the last unwalked edge is a visit to it. -/
theorem sweepEdge_eq_visit (L : Interpolation) (y : Nat) (l post : List Edge) (e : Edge) (st : List Span) (bk : Space Nat)
    (k : Nat) :
    sweepEdge L y l.length ⟨l ++ e :: post, st, bk, k⟩ =
      { visit L y e ⟨post, st, bk, k⟩ with et := l ++ (visit L y e ⟨post, st, bk, k⟩).et } := by
  have hget : (l ++ e :: post)[l.length]? = some e := by simp
  unfold sweepEdge visit
  simp only [hget]
  cases classify e y with
  | expired =>
    have : (l ++ e :: post).eraseIdx l.length = l ++ post := by
      rw [List.eraseIdx_append_of_length_le (Nat.le_refl _)]; simp
    simp [this]
  | notYet => rfl
  | active =>
    simp only [assembleEdge_et]
    rw [← assembleEdge_with_et]

/-- The walk by index is the fold of `visit` from the tail (42_edge_table.md R254, R257). -/
theorem walk_eq_foldr (L : Interpolation) (y : Nat) (l : List Edge) (sw : Sweep) :
    walk L y l.length { sw with et := l ++ sw.et } = l.foldr (visit L y) sw := by
  induction l using List.reverseRecOn generalizing sw with
  | nil => rfl
  | append_singleton l e ih =>
    obtain ⟨post, st, bk, k⟩ := sw
    rw [List.length_append, List.length_singleton, walk, List.foldr_append, List.append_assoc,
      List.singleton_append, sweepEdge_eq_visit]
    exact ih (visit L y e ⟨post, st, bk, k⟩)

/-- The edges ACTIVE at a scanline, in table order. -/
def activeEdges (y : Nat) (et : List Edge) : List Edge :=
  et.filter (fun e => decide (classify e y = .active))

/-- The fold of the visits: the unexpired edges stay in the table, and the active ones are assembled. -/
theorem foldr_visit (L : Interpolation) (y : Nat) (l : List Edge) (sw : Sweep) :
    l.foldr (visit L y) sw =
      { (activeEdges y l).foldr (assembleEdge L y) sw with
        et := l.filter (fun e => decide (classify e y ≠ .expired)) ++ sw.et } := by
  induction l with
  | nil =>
    simp [activeEdges]
  | cons e l ih =>
    rw [List.foldr_cons, ih]
    unfold visit activeEdges
    cases h : classify e y with
    | expired => simp [h]
    | notYet => simp [h]
    | active =>
      rw [List.filter_cons_of_pos (by simp [h]), List.filter_cons_of_pos (by simp [h]), List.foldr_cons]
      simp only [List.cons_append, assembleEdge_with_et]

/-! ## Endpoints -/

@[simp] theorem closedWith_closed (ep : Endpoint) (s : Span) : (closedWith ep s).closed = true := by
  unfold closedWith; split <;> rfl

@[simp] theorem closedWith_poly (ep : Endpoint) (s : Span) : (closedWith ep s).poly = s.poly := by
  unfold closedWith; split <;> rfl

/-- Closing a span puts its left endpoint first (43_span_assembler.md R305). -/
theorem closedWith_ordered (ep : Endpoint) (s : Span) :
    (closedWith ep s).ep0.x.toInt ≤ (closedWith ep s).ep1.x.toInt := by
  unfold closedWith; split <;> simp <;> omega

/-- The spans an endpoint leaves: those there were, the one it opens, or the one it closes. -/
theorem mem_placeEndpoint {p : Nat} {ep : Endpoint} {sw : Sweep} {sp : Span}
    (h : sp ∈ (placeEndpoint p ep sw).st) :
    sp ∈ sw.st ∨ sp = ⟨ep, Endpoint.zero, p, false⟩ ∨ ∃ a ∈ sw.st, sp = closedWith ep a := by
  cases hn : Space.get sw.bk p with
  | none =>
    rw [placeEndpoint_of_none hn] at h
    simp only [openSpan, List.mem_append, List.mem_singleton] at h
    exact h.imp id .inl
  | some j =>
    rw [placeEndpoint_of_some hn] at h
    simp only [closeSpan] at h
    obtain ⟨i, hi⟩ := List.mem_iff_getElem?.1 h
    rw [List.getElem?_modify] at hi
    cases hst : sw.st[i]? with
    | none => rw [hst] at hi; cases hi
    | some a =>
      have ha := List.mem_of_getElem? hst
      rw [hst] at hi
      split at hi
      · cases hi; exact .inr (.inr ⟨a, ha, rfl⟩)
      · cases hi; exact .inl ha

/-- BK keeps its canonical form. -/
theorem rising_placeEndpoint {p : Nat} {ep : Endpoint} {sw : Sweep} (h : Space.rising sw.bk = true) :
    Space.rising (placeEndpoint p ep sw).bk = true := by
  unfold placeEndpoint
  split
  · exact Space.rising_set h _ _
  · exact Space.rising_erase h _

/-- What the walk's endpoints keep, the walk keeps. -/
theorem foldr_assembleEdge_keeps {L : Interpolation} {y : Nat} {P : Sweep → Prop} (draws : ∀ sw k, P sw → P { sw with draws := k })
    (place : ∀ p ep sw, P sw → P (placeEndpoint p ep sw)) {sw : Sweep} (h : P sw) (l : List Edge) :
    P (l.foldr (assembleEdge L y) sw) := by
  induction l with
  | nil => exact h
  | cons e l ih =>
    rw [List.foldr_cons]
    by_cases hy : e.y0 = e.y1
    · rw [assembleEdge_of_eq hy]; exact ih
    · obtain ⟨ep, k, hs⟩ := sampleEdge_of_ne hy L y (l.foldr (assembleEdge L y) sw).draws
      rw [assembleEdge_of_ne hy hs]
      exact place _ _ _ (draws _ _ ih)

/-- Everything `Assemble(Y)` does: retire the expired edges, assemble the active ones from the tail, keep the
closed spans (43_span_assembler.md R300, R306). -/
theorem assemble_eq (L : Interpolation) (y : Nat) (et : List Edge) (k : Nat) :
    assemble L y et k =
      { et := et.filter (fun e => decide (classify e y ≠ .expired))
        st := closedSpans ((activeEdges y et).foldr (assembleEdge L y) ⟨[], [], [], k⟩).st
        bk := ((activeEdges y et).foldr (assembleEdge L y) ⟨[], [], [], k⟩).bk
        draws := ((activeEdges y et).foldr (assembleEdge L y) ⟨[], [], [], k⟩).draws } := by
  have h := walk_eq_foldr L y et ⟨[], [], [], k⟩
  simp only [List.append_nil] at h
  unfold assemble
  simp only [h, foldr_visit, List.append_nil]

/-- The edge table an `Assemble(Y)` leaves (42_edge_table.md R256). -/
theorem assemble_et (L : Interpolation) (y : Nat) (et : List Edge) (k : Nat) :
    (assemble L y et k).et = et.filter (fun e => decide (classify e y ≠ .expired)) := by rw [assemble_eq]

/-- BK after an `Assemble(Y)` is in canonical form. -/
theorem rising_assemble (L : Interpolation) (y : Nat) (et : List Edge) (k : Nat) : Space.rising (assemble L y et k).bk = true := by
  rw [assemble_eq]
  exact foldr_assembleEdge_keeps (P := fun sw => Space.rising sw.bk = true) (fun _ _ h => h)
    (fun _ _ _ h => rising_placeEndpoint h) rfl _

/-- A closed span of an `Assemble(Y)` was closed by `closedWith`. -/
theorem mem_assemble {L : Interpolation} {y : Nat} {et : List Edge} {k : Nat} {sp : Span} (h : sp ∈ (assemble L y et k).st) :
    sp.closed = true ∧ ∃ ep a, sp = closedWith ep a := by
  rw [assemble_eq] at h
  obtain ⟨h1, h2⟩ := List.mem_filter.1 h
  refine ⟨h2, ?_⟩
  exact foldr_assembleEdge_keeps
    (P := fun sw => ∀ sp ∈ sw.st, sp.closed = true → ∃ ep a, sp = closedWith ep a) (fun _ _ h => h)
    (fun p ep sw ih sp hsp hc => by
      rcases mem_placeEndpoint hsp with h | rfl | ⟨a, _, rfl⟩
      · exact ih sp h hc
      · cases hc
      · exact ⟨ep, a, rfl⟩) (by simp) _ sp h1 h2

end Sys2Proof.Machine
end

