-- ==== Sys2Proof/Tests/Slice0.lean ====
section
/-! SUPPORT. The model's own tests, their values taken from 95_test_vectors.md or worked from the rules named,
and for each obligation with hypotheses a witness that meets them. -/

namespace Sys2Proof.Tests

open Sys2Proof Sys2Proof.Machine

/-! ## Small states -/

/-- The reference interpolator, T_FRAC_BITS = 16 (45_interpolator.md R410). -/
def reference16 : Interpolation := ⟨16, .reference⟩

/-- An instance small enough to run in the kernel: 24 columns, 32 scanlines, 4 slots, 2 polygons, 8 vertices. -/
def small : Params := ⟨24, 32, 4, 2, 8, reference16, .stable, .stable⟩

/-- The instance `small` after power-on. -/
def blank : State := { State.reset with params := small }

/-- A Q19.12 coordinate of whole pixels. -/
def pixels (n : Int) : Word := BitVec.ofInt 32 (n * 4096)

/-- A vertex of 95_test_vectors.md: whole pixels and a depth, color 0x401F. -/
def corner (x y : Int) (w : Word) : Vertex := ⟨pixels x, pixels y, w, 0x401F, 0, 0⟩

/-- The geometry stage has written quad Q of 95_test_vectors.md and, at the last vertex, polygon [0, 1, 7]. -/
def geometry : Memory :=
  ⟨[(0, corner 5 20 0x1000), (1, corner 15 20 0x1000), (2, corner 15 10 0x1000), (3, corner 5 10 0x1000),
    (7, corner 9 12 0x1000)],
   [(0, ⟨[0, 1, 2, 3], 0⟩), (1, ⟨[0, 1, 7], 0⟩)], []⟩

/-- READY, with the geometry written. -/
def ready : State := initialise { blank with mem := geometry }

/-- READY, quad Q submitted. -/
def submitted : State := rebuildEdges 1 ready

/-- `submitted` after DRAW 15. -/
def drawn : State := drawScanline 15 submitted

/-- `submitted` with the words `ws` on its command port. -/
def withWords (ws : List Word) (s : State) : State := { s with port := ws.map HostMove.command }

/-- A block that raised NOT_READY at `DRAW 15`. -/
def stopped : State := faulted .notReady 0x5000000F blank

/-- The state an outcome goes on with. -/
def nextOf (o : Host.Outcome State Fault Refusal) : Option State :=
  match o with
  | .next s => some s
  | .fault _ => none
  | .refused _ => none

/-- Quad Q's row on the small instance (95_test_vectors.md section 1.8, cut to 24 columns). -/
def quadRow : Row :=
  List.replicate 5 .unwritten ++ List.replicate 11 (.color 0xF8 0x00 0x80) ++ List.replicate 8 .unwritten

/-! ## Decoding: words written out from 30_encoding.md R151, R152 (95_test_vectors.md section 2.1) -/

theorem test_decode_init : decode 0b0001_000000000000_0000000000000000#32 = .command .init := by decide

theorem test_decode_reset : decode 0b0010_000000000000_0000000000000000#32 = .command .reset := by decide

theorem test_decode_deinit : decode 0b0011_000000000000_0000000000000000#32 = .command .deinit := by decide

theorem test_decode_submit : decode 0b0100_000000000000_0000100000000000#32 = .command (.submit 2048) := by
  decide

theorem test_decode_draw : decode 0b0101_000000000000_0000000010111111#32 = .command (.draw 191) := by decide

theorem test_decode_read : decode 0b0110_000000000000_1111111111111111#32 = .command (.read 65535) := by decide

theorem test_decode_illegal : decode 0xFFFFFFFF#32 = .illegal ∧ decode 0x70000000#32 = .illegal := by decide

theorem test_decode_reserved :
    decode 0x1FFF0000#32 = .reservedField ∧ decode 0x40010001#32 = .reservedField ∧
    decode 0x20000001#32 = .reservedField := by decide

theorem test_decodeTableWord :
    decodeTableWord 32 0x6000000F = some (.read 15) ∧ decodeTableWord 32 0x70000000 = none ∧
    decodeTableWord 32 0x30000001 = none := by decide

/-- 95_test_vectors.md section 2.1: `SUBMIT 0x800` is `SUBMIT 2048`. -/
theorem test_assembly :
    assembleLines [['S', 'U', 'B', 'M', 'I', 'T', ' ', '0', 'x', '8', '0', '0'],
      ['D', 'R', 'A', 'W', ' ', '1', '5', ' ', ';', 'x']] = some [0x40000800#32, 0x5000000F#32] := by
  decide +kernel

/-- 30_encoding.md R157: 48879 is 0xBEEF, in capitals or not. -/
theorem test_hexText :
    hexText true 48879 = ['0', 'x', 'B', 'E', 'E', 'F'] ∧ hexText false 48879 = ['0', 'x', 'b', 'e', 'e', 'f'] ∧
    decimalText 48879 = ['4', '8', '8', '7', '9'] := by decide +kernel

/-- 30_encoding.md R157 and R158: an operand of 65536 assembles to no command. -/
theorem test_assembly_refused : parseLine ['D', 'R', 'A', 'W', ' ', '6', '5', '5', '3', '6'] = none := by
  decide +kernel

/-! ## WellFormed refuses an ill-formed operand -/

theorem test_wellFormed_submit : (Instr.submit 65536).wellFormed = false := by decide

theorem test_wellFormed_draw : (Instr.draw 65536).wellFormed = false := by decide

theorem test_wellFormed_read : (Instr.read 65536).wellFormed = false := by decide

theorem test_wellFormed_largest :
    (Instr.submit 65535).wellFormed = true ∧ (Instr.draw 65535).wellFormed = true ∧
    (Instr.read 65535).wellFormed = true := by decide

/-! ## One step -/

/-- 48_commands.md R551, the example: INIT at power-on gives READY and an empty edge table. -/
theorem test_step_init :
    (nextOf (step (State.reset.withFetchWord 32 0x10000000))).map (fun t => (t.life, t.et, t.fault)) =
      some (.ready, .known [], none) := by decide +kernel

/-- 48_commands.md R552, the example: RESET after SUBMIT leaves an empty edge table, and the cache as it was. -/
theorem test_step_reset :
    (nextOf (step (drawn.withFetchWord 32 0x20000000))).map (fun t => (t.et, t.mem)) =
      some (.known [], drawn.mem) := by decide +kernel

/-- 48_commands.md R556: DEINIT makes the tables and the cache Unknown. -/
theorem test_step_deinit :
    (nextOf (step (drawn.withFetchWord 32 0x30000000))).map (fun t => (t.life, t.et, readRow t.params t.mem 3)) =
      some (.deinit, .unknown, unknownRow small) := by decide +kernel

/-- 95_test_vectors.md section 1.3: the edge table of quad Q, in its sorted order. -/
theorem test_step_submit :
    (match (nextOf (step (ready.withFetchWord 32 0x40000001))).map State.et with
      | some (.known l) => l.map (fun e => (e.y0, e.end0.x, e.y1, e.end1.x))
      | _ => []) =
    [(0x14000#32, 0x5000#32, 0x14000#32, 0xF000#32), (0x14000#32, 0xF000#32, 0xA000#32, 0xF000#32),
     (0x14000#32, 0x5000#32, 0xA000#32, 0x5000#32), (0xA000#32, 0xF000#32, 0xA000#32, 0x5000#32)] := by
  decide +kernel

/-- 48_commands.md R553: a count above MAX_POLYGONS faults. -/
theorem test_step_submit_count :
    (nextOf (step (ready.withFetchWord 32 0x40000003))).map State.fault =
      some (some ⟨.polygonCount, 0x40000003#32⟩) := by decide +kernel

/-- 95_test_vectors.md section 1.8: DRAW 15 of quad Q writes slot 15 mod 4. -/
theorem test_step_draw :
    (nextOf (step (submitted.withFetchWord 32 0x5000000F))).map (fun t => readRow t.params t.mem 3) =
      some quadRow := by decide +kernel

/-- 95_test_vectors.md section 2.4: DRAW 15 retires p0s0 alone. -/
theorem test_step_draw_retires :
    (match (nextOf (step (submitted.withFetchWord 32 0x5000000F))).map State.et with
      | some (.known l) => l.map (fun e => (e.y0, e.y1))
      | _ => []) =
    [(0x14000#32, 0xA000#32), (0x14000#32, 0xA000#32), (0xA000#32, 0xA000#32)] := by decide +kernel

/-- 48_commands.md R555: READ 15 delivers the row DRAW 15 wrote; slot 3 is also the slot of scanline 19. -/
theorem test_step_read :
    (nextOf (step (drawn.withFetchWord 32 0x6000000F))).map State.rowOut = some [quadRow] ∧
    (nextOf (step (drawn.withFetchWord 32 0x60000013))).map State.rowOut = some [quadRow] := by decide +kernel

/-- 48_commands.md R550: DRAW before INIT raises NOT_READY with its word. -/
theorem test_step_notReady :
    nextOf (step (blank.withFetchWord 32 0x5000000F)) = some stopped := by decide +kernel

/-! ## The units -/

/-- An attribute set of 95_test_vectors.md section 2.5. -/
def attributes (x w c : Int) : Endpoint := ⟨wrap32 x, wrap32 w, ⟨wrap32 c, wrap32 c, wrap32 c⟩, 0, 0⟩

/-- The x, w and channel 0 of a sample, and how many free values it drew. -/
def sampled (A B : Endpoint) (ca cb p : Int) : Option (Int × Int × Int) × Nat :=
  ((interp reference16 A B ca cb p 0).1.map (fun e => (e.x.toInt, e.w.toInt, e.c.ch0.toInt)), (interp reference16 A B ca cb p 0).2)

/-- V-INT-1: perspective. -/
theorem test_interp_perspective :
    sampled (attributes 0 0x1000 1) (attributes 0x10000 0x3000 63) 0 0x10000 0x8000 =
      (some (0x8000, 0x2000, 47), 0) := by decide +kernel

/-- V-INT-6: a zero range is `NoWrite`. -/
theorem test_interp_zero_range :
    sampled (attributes 0x5000 0x1000 1) (attributes 0x5000 0x1000 63) 0xA000 0xA000 0xA000 = (none, 0) := by
  decide +kernel

/-- V-INT-7: rounding is down, below zero too. -/
theorem test_interp_floor :
    sampled (attributes (-3) 0x1000 1) (attributes 0 0x1000 2) 0 0x10000 0x8000 = (some (-2, 0x1000, 1), 0) := by
  decide +kernel

/-- V-INT-9: depths of opposite sign, out of range and no fault. -/
theorem test_interp_opposite_depths :
    sampled (attributes 0 0x1000 63) (attributes 0x10000 (-0xFFF) 1) 0 0x10000 0x8000 =
      (some (0x8000, 0, 253953), 0) := by decide +kernel

/-- V-INT-13: with the divisor 0 the linear attributes are as ever, and five free values are drawn. -/
theorem test_interp_zero_divisor :
    (interp reference16 (attributes 0 0x1000 63) (attributes 0x10000 (-0x1000) 63) 0 0x10000 0x8000 0).1.map
      (fun e => (e.x.toInt, e.w.toInt)) = some (0x8000, 0) ∧
    (interp reference16 (attributes 0 0x1000 63) (attributes 0x10000 (-0x1000) 63) 0 0x10000 0x8000 7).2 = 12 := by
  decide +kernel

/-- Rounding to nearest keeps the laws R401 to R409: half-way from attribute 3 at depth 1 to attribute 1 at depth 3
the quotient is 3/2, and its nearest, 2, is a value of another arithmetic than the reference, which rounds down. -/
theorem test_round_to_nearest :
    referenceAttribute 16 3 1 1 3 ⟨1, 2⟩ = 1 ∧
    lawfulAttribute 3 1 1 3 ⟨1, 2⟩ 2 (near (floordiv (exactSum 3 3 ⟨1, 2⟩) (exactSum 1 3 ⟨1, 2⟩)) 1 1) = 2 ∧
    lawfulLinear 1 4 ⟨1, 2⟩ (near (exactLerp 1 4 ⟨1, 2⟩) 1 1) = 3 := by decide +kernel

/-- 95_test_vectors.md section 2.2: color 0x401F, and the interpolated values 64 and -1. -/
theorem test_codec :
    expand 0x401F = ⟨63, 1, 33⟩ ∧ (contract (expand 0x401F)).pixelWord = some 0x008000F8#32 ∧
    contractChannel 64 = 0x00 ∧ contractChannel (-1) = 0xF8 := by decide +kernel

/-- The edge of 95_test_vectors.md section 2.4 with rows 20 and 10. -/
def edgeOfRows (y0 y1 : Int) : Edge := ⟨pixels y0, attributes 0 0x1000 1, pixels y1, attributes 0x5000 0x1000 63, 1⟩

/-- 95_test_vectors.md section 2.4. -/
theorem test_classify :
    [9, 10, 20, 21].map (classify (edgeOfRows 20 10)) = [.expired, .active, .active, .notYet] := by decide +kernel

/-- A span of two columns' ends and a depth. -/
def spanOf (x0 x1 w : Int) : Span := ⟨attributes (x0 * 4096) w 1, attributes (x1 * 4096) w 63, 0, true⟩

/-- 44_depth_resolver.md R356 and V-RES-5: the numerically greater depth wins, and among equals the one nearer
the tail. -/
theorem test_pick :
    (pick reference16 12 [spanOf 10 20 (-0x3000), spanOf 5 15 (-0x1000)] 0).1 = some (1, -0x1000#32) ∧
    (pick reference16 12 [spanOf 10 20 0x1000, spanOf 5 15 0x1000] 0).1 = some (1, 0x1000#32) ∧
    (pick reference16 12 [spanOf 10 20 0x2000, spanOf 5 15 0x1000] 0).1 = some (0, 0x2000#32) := by decide +kernel

/-! ## Witnesses: each statement's hypotheses are met -/

theorem witness_DecodeFollowsTheFields :
    ((0x0FFFFFFF#32 : Word).toNat / 2 ^ 28 < 1 ∧ 6 < (0x70000000#32 : Word).toNat / 2 ^ 28) ∧
    ((0x10010000#32 : Word).toNat / 2 ^ 28 = 1 ∧ (0x10010000#32 : Word).toNat / 2 ^ 16 % 2 ^ 12 ≠ 0) ∧
    ((0x6FFFFFFF#32 : Word).toNat / 2 ^ 28 = 6 ∧ (0x6FFFFFFF#32 : Word).toNat / 2 ^ 16 % 2 ^ 12 ≠ 0) ∧
    ((0x30000001#32 : Word).toNat / 2 ^ 28 = 3 ∧ (0x30000001#32 : Word).toNat / 2 ^ 16 % 2 ^ 12 = 0 ∧
      (0x30000001#32 : Word).toNat % 2 ^ 16 ≠ 0) ∧
    ((0x30000000#32 : Word).toNat / 2 ^ 28 = 3 ∧ (0x30000000#32 : Word).toNat / 2 ^ 16 % 2 ^ 12 = 0 ∧
      (0x30000000#32 : Word).toNat % 2 ^ 16 = 0) ∧
    ((0x4000FFFF#32 : Word).toNat / 2 ^ 28 = 4 ∧ (0x4000FFFF#32 : Word).toNat / 2 ^ 16 % 2 ^ 12 = 0) := by
  decide

theorem witness_DecodeOfEncode : ∃ i : Instr, i.wellFormed = true ∧ i = .submit 65535 := ⟨_, rfl, rfl⟩

theorem witness_EncodeOfDecode : ∃ (w : Word) (i : Instr), decode w = .command i := ⟨0x6000FFFF#32, .read 65535, by decide⟩

theorem witness_ParseOfRender :
    (Instr.draw 0).wellFormed = true ∧ (Instr.read 65535).wellFormed = true ∧
    assembleLines [initText, renderCommand decimalText (.draw 15)] = some [0x10000000#32, 0x5000000F#32] ∧
    assembleLines [initText, ['I', 'n', 'i', 't']] = none := by decide +kernel

theorem witness_StepRunsDecodedCommand :
    ∃ (s : State) (w : Word) (rest : List HostMove) (i : Instr),
      s.port = .command w :: rest ∧ s.fault = none ∧ decode w = .command i :=
  ⟨withWords [0x5000000F#32, 0x6000000F#32] submitted, _, _, .draw 15, rfl, rfl, by decide⟩

theorem witness_PlacedWordIsPerformed : (Instr.draw 65535).wellFormed = true ∧ ready.fault = none := by decide

theorem witness_BadWordsFault :
    ∃ s u : State, s.port = [.command 0x0FFFFFFF#32] ∧ s.fault = none ∧
      (0x0FFFFFFF#32 : Word).toNat / 2 ^ 28 < 1 ∧
      u.port = [.command 0x3000FFFF#32] ∧ u.fault = none ∧
      1 ≤ (0x3000FFFF#32 : Word).toNat / 2 ^ 28 ∧ (0x3000FFFF#32 : Word).toNat / 2 ^ 28 ≤ 3 ∧
      (0x3000FFFF#32 : Word).toNat % 2 ^ 16 ≠ 0 :=
  ⟨withWords [0x0FFFFFFF#32] blank, withWords [0x3000FFFF#32] blank, rfl, rfl, by decide, rfl, rfl, by decide,
    by decide, by decide⟩

theorem witness_FaultedBlockStaysFaulted :
    (∃ t, step { stopped with port := [.powerOn] } = .next t) ∧ ∃ (s u : State) (f : FaultRecord), s.fault = some f ∧ s.port = [.command 0x10000000#32] ∧
      u.fault = some f ∧ (∃ t, exec .init u = .next t) ∧ (∃ t, step u = .next t) ∧
      ∀ rest, u.port ≠ .powerOn :: rest :=
  ⟨⟨_, rfl⟩, withWords [0x10000000#32] stopped, stopped, _, rfl, rfl, rfl, ⟨_, rfl⟩, ⟨_, rfl⟩,
    by simp [stopped, faulted, blank, State.reset]⟩

theorem witness_FaultsArePrecise :
    (∃ (s t : State) (w : Word) (rest : List HostMove) (f : FaultRecord), s.port = .command w :: rest ∧
      s.fault = none ∧ step s = .next t ∧ t.fault = some f) ∧
    ∃ (s t : State) (i : Instr) (f : FaultRecord), s.fault = none ∧ exec i s = .next t ∧ t.fault = some f :=
  ⟨⟨withWords [0xFFFFFFFF#32] ready, _, _, _, _, rfl, rfl, rfl, rfl⟩, ⟨blank, _, .draw 15, _, rfl, rfl, rfl⟩⟩

theorem witness_PowerOnState :
    (∃ s : State, s.port = [.powerOn] ∧ s ≠ blank) ∧ (∃ s : State, s.port = []) ∧
    ∃ s : State, PoweredOn s ∧ s.draws ≠ 0 :=
  ⟨⟨{ drawn with port := [.powerOn] }, rfl, by decide +kernel⟩, ⟨blank, rfl⟩,
    ⟨powerOn drawn, ⟨rfl, rfl, rfl, rfl, rfl, rfl, fun _ => rfl⟩, by decide +kernel⟩⟩

theorem witness_GeometryWritesLand :
    (∃ s : State, s.port = [.writeVertex 7 default] ∧ 7 < s.params.maxVertices) ∧
    (∃ s : State, s.port = [.writeVertex 8 default] ∧ s.params.maxVertices ≤ 8) ∧
    (∃ s : State, s.port = [.writePolygon 1 default] ∧ 1 < s.params.maxPolygons) ∧
    (∃ s : State, s.port = [.writePolygon 2 default] ∧ s.params.maxPolygons ≤ 2) :=
  ⟨⟨{ ready with port := _ }, rfl, by decide⟩, ⟨{ ready with port := _ }, rfl, by decide⟩,
    ⟨{ ready with port := _ }, rfl, by decide⟩, ⟨{ ready with port := _ }, rfl, by decide⟩⟩

/-- For ResetResult, DeinitResult and LifecycleModes. -/
theorem witness_lifecycle_commands :
    drawn.life = .ready ∧ 31 < drawn.params.screenHeight ∧ drawn.fault = none ∧ blank.life ≠ .ready ∧
    blank.fault = none := by decide

theorem witness_LifecycleModes :
    (∃ s t : State, step s = .next t ∧ t.life ≠ s.life ∧ t.life = .ready) ∧
    (∃ s t : State, step s = .next t ∧ t.life ≠ s.life ∧ t.life = .deinit) ∧
    (∃ s t : State, step s = .next t ∧ t.life ≠ s.life ∧ t.life = .uninit) ∧
    (∃ (t : State) (f : FaultRecord), ready.life = .ready ∧ ready.fault = none ∧ exec (.draw 32) ready = .next t ∧
      t.fault = some f) :=
  ⟨⟨withWords [0x10000000#32] blank, _, rfl, by decide, rfl⟩,
    ⟨withWords [0x30000000#32] ready, _, rfl, by decide, rfl⟩,
    ⟨{ ready with port := [.powerOn] }, _, rfl, by decide, rfl⟩, ⟨_, _, rfl, rfl, rfl, rfl⟩⟩

/-- Both polygons of `ready` are admitted, and 2 is MAX_POLYGONS. -/
theorem witness_SubmitRebuildsTheEdgeTable :
    ready.life = .ready ∧ 2 ≤ ready.params.maxPolygons ∧ (∀ q < 2, polygonAdmitted ready q) := by
  refine ⟨rfl, by decide, fun q hq => ?_⟩
  exact polygonCheck_none_iff.1 ((by decide +kernel :
    ∀ q < 2, polygonCheck ready.params (readPolygon ready.mem ready.draws q) = none) q hq)

theorem witness_SubmitRebuildsTheEdgeTable_draw :
    ∃ (l : List Edge) (t : State), submitted.et = .known l ∧ l ≠ [] ∧ exec (.draw 15) submitted = .next t :=
  ⟨_, _, rfl, by decide +kernel, rfl⟩

/-- For SubmitEdgeCount. -/
theorem witness_SubmitEdgeCount : ∃ t, exec (.submit 2) ready = .next t := ⟨_, rfl⟩

/-- `ready` with polygon 1 replaced. -/
def withSecondPolygon (r : Polygon) : State := writePolygon 1 r ready

theorem witness_OperandChecksFault :
    ready.params.maxPolygons < 3 ∧
    (∀ r, ∀ q < 1, polygonAdmitted (withSecondPolygon r) q) ∧
    (readPolygon (withSecondPolygon ⟨[0, 1], 0⟩).mem 0 1).n < 3 ∧
    4 < (readPolygon (withSecondPolygon ⟨[0, 1, 2, 3, 99], 0⟩).mem 0 1).n ∧
    (∃ i ∈ (readPolygon (withSecondPolygon ⟨[0, 1, 8], 0⟩).mem 0 1).v,
      (withSecondPolygon ⟨[0, 1, 8], 0⟩).params.maxVertices ≤ i) ∧
    ready.params.screenHeight ≤ 32 ∧ 31 < ready.params.screenHeight ∧ (∃ t, exec (.read 31) ready = .next t) ∧
    ready.life = .ready ∧ ready.fault = none := by
  refine ⟨by decide, fun r q hq => ?_, by decide, by decide, ⟨8, by decide, by decide⟩, by decide, by decide,
    ⟨_, rfl⟩, rfl, rfl⟩
  obtain rfl : q = 0 := by omega
  refine polygonCheck_none_iff.1 ?_
  show polygonCheck small ⟨[0, 1, 2, 3], 0⟩ = none
  decide

theorem witness_SubmitFrame :
    (∃ t, exec (.submit 1) ready = .next t ∧ t.fault = ready.fault) ∧
    (∃ t, exec (.submit 3) ready = .next t ∧ t.fault ≠ ready.fault) :=
  ⟨⟨_, rfl, rfl⟩, ⟨_, rfl, by decide⟩⟩

theorem witness_PolygonSides :
    ∃ r : Polygon, r.v[1]? = some 5 ∧ r.v[2]? = some 6 ∧ r.v.getLast? = some 6 ∧ r.v.head? = some 4 :=
  ⟨⟨[4, 5, 6], 0⟩, rfl, rfl, rfl, rfl⟩

theorem witness_EdgesAreOriented :
    (corner 15 20 0x1000).y.toInt ≤ (corner 5 20 0x1000).y.toInt ∧
    (corner 5 10 0x1000).y.toInt < (corner 5 20 0x1000).y.toInt := by decide

/-- An oriented edge, at the scanlines on both sides of each end. -/
theorem witness_Classification :
    (edgeOfRows 20 10).oriented ∧ (9 : Int) < (edgeOfRows 20 10).y1.toInt / 4096 ∧
    (edgeOfRows 20 10).y1.toInt / 4096 ≤ (10 : Int) ∧ (20 : Int) ≤ (edgeOfRows 20 10).y0.toInt / 4096 ∧
    (edgeOfRows 20 10).y0.toInt / 4096 < (21 : Int) := by
  unfold Edge.oriented; decide

/-- A vertical edge of polygon 1 from row 20 to row 10. -/
def verticalEdge (x : Int) : Edge :=
  ⟨pixels 20, attributes (x * 4096) 0x1000 1, pixels 10, attributes (x * 4096) 0x1000 1, 1⟩

/-- Three active edges: the last two in the table pair, and the first, the odd one, is dropped (42_edge_table.md R254,
43_span_assembler.md R306, R309). -/
theorem witness_WalkRetiresExactlyTheExpired :
    (assemble reference16 15 [verticalEdge 0, verticalEdge 10, edgeOfRows 12 11, verticalEdge 20] 0).st.map
      (fun sp => (sp.ep0.x, sp.ep1.x)) = [(pixels 10, pixels 20)] := by decide +kernel

theorem witness_ZeroHeightEdgesAreDiscarded :
    (edgeOfRows 20 20).y0 = (edgeOfRows 20 20).y1 ∧ (edgeOfRows 20 10).y0 ≠ (edgeOfRows 20 10).y1 := by decide

/-- One open span, of polygon 1. -/
def oneOpen : Sweep := ⟨[], [⟨attributes 5 1 1, Endpoint.zero, 1, false⟩], [(1, 0)], 0⟩

theorem witness_OpenAndCloseSpan :
    Space.get oneOpen.bk 0 = none ∧ Space.get oneOpen.bk 1 = some 0 ∧
    oneOpen.st[0]? = some ⟨attributes 5 1 1, Endpoint.zero, 1, false⟩ ∧
    (attributes 4 1 1).x.toInt < (attributes 5 1 1).x.toInt ∧
    (attributes 5 1 1).x.toInt ≤ (attributes 5 2 2).x.toInt := by decide

theorem witness_BucketNamesOpenSpansThroughout : BucketNamesOpenSpans oneOpen := by
  constructor
  · intro k sp h ho
    match k, h with
    | 0, h => cases h; rfl
    | k + 1, h => cases h
  · intro p k h
    by_cases hp : p = 1
    · subst hp; cases h; exact ⟨_, rfl, rfl, rfl⟩
    · simp [oneOpen, Space.get, hp] at h

theorem witness_AssembledSpansAreWellOrdered :
    ∃ sp, sp ∈ (assemble reference16 15 (edgeTableOf submitted.et 0) 0).st :=
  List.exists_mem_of_ne_nil _ (by decide +kernel)

/-- For PickFindsTheDeepestCandidate, ColumnCell and RetirementOfSpansDoesNotShow. -/
def twoSpans : List Span := [spanOf 10 20 0x2000, spanOf 5 15 0x1000]

theorem witness_SpansSorted : SpansSorted twoSpans ∧ ∀ sp ∈ twoSpans, sp.wellOrdered := by
  unfold SpansSorted Span.wellOrdered; decide +kernel

/-- A span from column 10 to column 20 is a candidate at both and at neither column just outside; one of no width is
none at its own column. -/
theorem witness_PickFindsTheDeepestCandidate_columns :
    Candidate 10 (spanOf 10 20 0x2000) ∧ Candidate 20 (spanOf 10 20 0x2000) ∧
    ¬ Candidate 9 (spanOf 10 20 0x2000) ∧ ¬ Candidate 21 (spanOf 10 20 0x2000) ∧
    ¬ Candidate 10 (spanOf 10 10 0x2000) ∧
    (spanOf 10 20 0x2000).ep0.x.toInt / 4096 = 10 ∧ (spanOf 10 20 0x2000).ep1.x.toInt / 4096 = 20 := by
  unfold Candidate; decide +kernel

theorem witness_PickFindsTheDeepestCandidate :
    (pick reference16 21 twoSpans 0).1 = none ∧ (pick reference16 20 twoSpans 0).1 = some (0, 0x2000#32) ∧
    (∃ (j : Nat) (sp : Span), twoSpans[j]? = some sp ∧ Candidate 15 sp ∧ (pick reference16 15 twoSpans 0).1 = some (0, 0x2000#32)) :=
  ⟨by decide +kernel, by decide +kernel, ⟨1, _, rfl, by unfold Candidate; decide +kernel, by decide +kernel⟩⟩

theorem witness_ColumnCell :
    (∀ sp ∈ twoSpans, ¬ Candidate 21 sp) ∧ ∃ sp ∈ twoSpans, Candidate 5 sp := by
  unfold Candidate; decide +kernel

/-- A column with a candidate, the last one with none, and the spans `witness_SpansSorted` shows well ordered. -/
theorem witness_EveryColumnIsWritten :
    23 < small.width ∧ (∀ sp ∈ twoSpans, ¬ Candidate 23 sp) ∧ (∃ sp ∈ twoSpans, Candidate 15 sp) := by
  unfold Candidate; decide +kernel

theorem witness_DrawResult :
    submitted.life = .ready ∧ 31 < submitted.params.screenHeight ∧ 0 ≠ 31 % submitted.params.cacheLines ∧
    ready.et = .known [] := by decide

theorem witness_DrawFrame :
    submitted.work = WorkRegs.unknown ∧ (∃ t, exec (.draw 15) submitted = .next t ∧ t.fault = submitted.fault) ∧
    ∃ t, exec (.draw 32) submitted = .next t ∧ t.fault ≠ submitted.fault :=
  ⟨rfl, ⟨_, rfl, rfl⟩, ⟨_, rfl, by decide +kernel⟩⟩

theorem witness_ReadResult :
    drawn.life = .ready ∧ 31 < drawn.params.screenHeight ∧ drawn.params.screenHeight ≤ 32 ∧
    drawn.fault = none ∧ blank.life ≠ .ready ∧ blank.fault = none := by decide

theorem witness_CacheOverwrite :
    submitted.life = .ready ∧ submitted.fault = none ∧
    (∃ t u, exec (.draw 15) submitted = .next t ∧ exec (.read 19) t = .next u) ∧
    (∃ t u, exec (.draw 15) submitted = .next t ∧ exec (.read 31) t = .next u) ∧
    (∃ t u, exec (.draw 15) submitted = .next t ∧ exec (.read 0) t = .next u) ∧
    15 < submitted.params.screenHeight ∧ 31 < submitted.params.screenHeight ∧
    19 % submitted.params.cacheLines = 15 % submitted.params.cacheLines ∧
    0 % submitted.params.cacheLines ≠ 15 % submitted.params.cacheLines :=
  ⟨rfl, rfl, ⟨_, _, rfl, rfl⟩, ⟨_, _, rfl, rfl⟩, ⟨_, _, rfl, rfl⟩, by decide, by decide, by decide, by decide⟩

theorem witness_LowerScanlinesKeepTheirRows : (15 : Nat) ≤ 15 ∧ (0 : Nat) ≤ 15 := by decide

/-- DRAW 15 twice in a row, and with a DRAW 20 between. -/
theorem witness_RepeatedDrawGivesTheSameRow :
    submitted.life = .ready ∧ submitted.fault = none ∧ 20 < submitted.params.screenHeight ∧
    (∃ t u v, exec (.draw 15) submitted = .next t ∧ DrawsLeadTo [] t u ∧ exec (.draw 15) u = .next v ∧
      u.draws = submitted.draws) ∧
    ∃ t u v, exec (.draw 15) submitted = .next t ∧ DrawsLeadTo [20] t u ∧ exec (.draw 15) u = .next v ∧
      u.draws = submitted.draws :=
  ⟨rfl, rfl, by decide, ⟨_, _, _, rfl, rfl, rfl, by decide +kernel⟩,
    _, _, _, rfl, ⟨_, rfl, rfl⟩, rfl, by decide +kernel⟩

/-- For the statements about `interp`: each clause of ClampLaw, at its bound, and the other laws' premises. -/
theorem witness_ClampLaw :
    (0 : Int) ≠ 0x10000 ∧ ((0 : Int) < 0x10000 ∧ (0 : Int) ≤ 0) ∧ ((-1 : Int) < 0x10000 ∧ (0x10000 : Int) ≤ 0x10000) ∧
    ((0xA000 : Int) < 0x14000 ∧ (0x14000 : Int) ≤ 0x14000) ∧ (attributes 0 0x1000 1).w ≠ 0 := by decide

theorem witness_DegenerateLaw : ∃ ca cb : Int, ca = cb := ⟨0xA000, 0xA000, rfl⟩

theorem witness_EqualDepthLaw :
    (attributes 0 0x1000 1).w = (attributes 0x10000 0x1000 63).w ∧ (attributes 0 0x1000 1).w ≠ 0 ∧
    (0 : Int) ≠ 0x10000 := by decide

theorem witness_ZeroDivisorLaw :
    (0 : Int) ≠ 0x10000 ∧
    zeroDivisor reference16 (attributes 0 0x1000 63).w.toInt (attributes 0x10000 (-0x1000) 63).w.toInt
      (position 0 0x10000 0x8000) = true := by decide +kernel

/-- Half-way between two depths, the fraction worked out by hand: D = 0x2000 << 16 (45_interpolator.md R410, the
example), and D = 0 between opposite depths; the same in parts of the range; and a sample of another arithmetic that
draws nothing. -/
theorem witness_InterpolationArithmetic :
    (0x8000 : Int) = min (max (0x8000 - 0) 0) (0x10000 - 0) ∧
    (0x8000 : Int) = Int.fdiv (0x8000 * 2 ^ 16) (0x10000 - 0) ∧
    (attributes 0 0x1000 1).w.toInt * 0x8000 + (attributes 0x10000 0x3000 63).w.toInt * 0x8000 = 0x20000000 ∧
    (attributes 0 0x1000 1).w.toInt * 0x8000 + (attributes 0x10000 (-0x1000) 63).w.toInt * 0x8000 = 0 ∧
    (0x8000 : Int) = 0x10000 - 0 - 0x8000 ∧
    (interp ⟨16, .other 1 1 1⟩ (attributes 0 0x1000 1) (attributes 0x10000 0x3000 63) 0 0x10000 0x8000 7).2 = 7 := by
  decide +kernel

theorem witness_SamplesLieBetweenTheEnds :
    (∃ e k, interp reference16 (attributes 0 1 1) (attributes 0x10000 0x3000 63) 0 0x10000 0x8000 0 = (some e, k)) ∧
    ((0 < (attributes 0 1 1).w.toInt ∧ 0 < (attributes 0x10000 0x3000 63).w.toInt) ∧
     ((attributes 0 (-1) 1).w.toInt < 0 ∧ (attributes 0x10000 (-0x3000) 63).w.toInt < 0)) :=
  ⟨⟨_, _, rfl⟩, by decide⟩

/-- A power-on, an INIT, a DEINIT and a DRAW that change slot 3. -/
theorem witness_OnlyTheseMovesChangeTheCache :
    (∃ t, step { drawn with port := [.powerOn] } = .next t ∧ readRow t.params t.mem 3 ≠ readRow small drawn.mem 3) ∧
    (∃ t, step (withWords [0x10000000#32] drawn) = .next t ∧
      readRow t.params t.mem 3 ≠ readRow small drawn.mem 3) ∧
    (∃ t, step (withWords [0x30000000#32] drawn) = .next t ∧
      readRow t.params t.mem 3 ≠ readRow small drawn.mem 3) ∧
    (∃ t, step (withWords [0x5000000F#32] submitted) = .next t ∧
      readRow t.params t.mem 3 ≠ readRow small submitted.mem 3) :=
  ⟨⟨_, rfl, by decide +kernel⟩, ⟨_, rfl, by decide +kernel⟩, ⟨_, rfl, by decide +kernel⟩,
    ⟨_, rfl, by decide +kernel⟩⟩

theorem witness_OnlyTheGeometryStageWritesGeometry :
    (∃ t, exec (.submit 2) ready = .next t) ∧
    (∃ t, step { ready with port := [.writeVertex 7 default] } = .next t ∧ t.mem.vb ≠ ready.mem.vb) ∧
    (∃ t, step { ready with port := [.writePolygon 1 default] } = .next t ∧ t.mem.pl ≠ ready.mem.pl) ∧
    (∃ t, step { ready with port := [.powerOn] } = .next t ∧ t.mem.pl ≠ ready.mem.pl) :=
  ⟨⟨_, rfl⟩, ⟨_, rfl, by decide +kernel⟩, ⟨_, rfl, by decide +kernel⟩, ⟨_, rfl, by decide +kernel⟩⟩

theorem witness_OnlyReadDelivers :
    ∃ t, step (withWords [0x6000000F#32] drawn) = .next t ∧ t.rowOut ≠ drawn.rowOut := ⟨_, rfl, by decide +kernel⟩

theorem witness_GeometryIsSeenBySubmitAlone :
    (∀ n, Instr.draw 15 ≠ .submit n) ∧ ∃ t, exec (.draw 15) submitted = .next t := ⟨by simp, ⟨_, rfl⟩⟩

/-- Two states that differ in their span table. -/
theorem witness_ScratchIsNotObservable :
    ∃ s s' t t' : State, SameButScratch s s' ∧ s ≠ s' ∧ exec (.draw 15) s = .next t ∧ exec (.draw 15) s' = .next t' :=
  ⟨submitted, { submitted with st := .known twoSpans }, _, _, rfl, by decide +kernel, rfl, rfl⟩

theorem witness_MemoryFormIsKept :
    small.valid = true ∧ Memory.wf small submitted.mem = true ∧
    ∃ t, step (withWords [0x5000000F#32] submitted) = .next t ∧ t.mem ≠ submitted.mem :=
  ⟨by decide, by decide +kernel, _, rfl, by decide +kernel⟩

/-- The invariant holds of a state with edges, a row in the cache and a row delivered, and it steps on. -/
theorem witness_StepKeepsTheInvariant :
    BlockInvariant (withWords [0x5000000E#32] (deliver quadRow drawn)) ∧
    ∃ t, step (withWords [0x5000000E#32] (deliver quadRow drawn)) = .next t := by
  refine ⟨⟨by decide, by decide +kernel, by decide +kernel, rfl, ⟨fun _ => ⟨_, rfl, ?_⟩, fun _ => ⟨_, rfl, ?_⟩,
    fun _ => ⟨_, rfl, by decide +kernel⟩, fun h => absurd rfl h⟩, by decide +kernel⟩, _, rfl⟩
  · exact ⟨by unfold EdgesSorted; decide +kernel, by unfold Edge.oriented; decide +kernel, by decide +kernel,
      by decide +kernel⟩
  · unfold Span.wellOrdered; decide +kernel

end Sys2Proof.Tests
end

section
/-! The lifecycle (10_state.md R52, 60_exceptions.md R608): no operand check finds NOT_READY, and LIFE moves only by
INIT, DEINIT and power-on. -/

namespace Sys2Proof.Machine

/-! ## The operand checks find operand faults only -/

theorem scanlineCheck_ne_notReady (p : Params) (y : Nat) : scanlineCheck p y ≠ some .notReady := by
  unfold scanlineCheck
  split <;> simp

theorem polygonCheck_ne_notReady (p : Params) (r : Polygon) : polygonCheck p r ≠ some .notReady := by
  unfold polygonCheck
  split
  · split <;> simp
  · simp

theorem polygonsCheck_ne_notReady (p : Params) (m : Memory) (k n : Nat) : polygonsCheck p m k n ≠ some .notReady := by
  intro h
  obtain ⟨q, -, hq⟩ := List.exists_of_findSome?_eq_some h
  exact polygonCheck_ne_notReady p _ hq

theorem submitCheck_ne_notReady (n : Nat) (s : State) : submitCheck n s ≠ some .notReady := by
  rcases Nat.lt_or_ge s.params.maxPolygons n with h | h
  · simp [submitCheck_of_gt h]
  · rw [submitCheck_of_le h]
    exact polygonsCheck_ne_notReady _ _ _ _

theorem checkOf_ne_notReady (i : Instr) (s : State) : checkOf i s ≠ some .notReady := by
  cases i with
  | init | reset | deinit => simp [checkOf]
  | submit n => exact submitCheck_ne_notReady n s
  | draw y | read y => exact scanlineCheck_ne_notReady s.params y

/-- A fault that a command raises in READY is the one its operand check finds. -/
theorem checkOf_of_exec_fault {i : Instr} {s t : State} {f : FaultRecord} (hr : s.life = .ready)
    (hf : s.fault = none) (h : exec i s = .next t) (ht : t.fault = some f) : checkOf i s = some f.code := by
  rcases exec_cases h with ⟨-, -, rfl⟩ | ⟨code, -, hc, rfl⟩
  · obtain ⟨-, -, -, -, hfault⟩ := effectOf_frame i s
    simp [hfault, hf] at ht
  · rw [raiseFault_of_none hf] at ht
    cases ht
    exact hc.resolve_left (not_not_intro hr)

/-! ## The moves that change LIFE -/

theorem effectOf_life_cases (i : Instr) (s : State) :
    (i = .init ∧ (effectOf i s).life = .ready) ∨ (i = .deinit ∧ (effectOf i s).life = .deinit) ∨
    (effectOf i s).life = s.life := by
  cases i <;> simp [effectOf]

theorem exec_life_ne {i : Instr} {s t : State} (h : exec i s = .next t) (hl : t.life ≠ s.life) :
    (i = .init ∧ t.life = .ready) ∨ (i = .deinit ∧ s.life = .ready ∧ t.life = .deinit) := by
  rcases exec_cases h with ⟨hacc, -, rfl⟩ | ⟨code, -, -, rfl⟩
  · rcases effectOf_life_cases i s with ⟨hi, ht⟩ | ⟨rfl, ht⟩ | ht
    · exact .inl ⟨hi, ht⟩
    · exact .inr ⟨rfl, by simpa using hacc, ht⟩
    · exact absurd ht hl
  · exact absurd (raiseFault_life ..) hl

theorem step_life_ne {s t : State} (h : step s = .next t) (hl : t.life ≠ s.life) : ∃ rest,
    (∃ w, s.port = .command w :: rest ∧ s.fault = none ∧
      ((decode w = .command .init ∧ t.life = .ready) ∨
       (decode w = .command .deinit ∧ s.life = .ready ∧ t.life = .deinit))) ∨
    (s.port = .powerOn :: rest ∧ t.life = .uninit) := by
  rcases step_cases h with ⟨-, rfl⟩ | ⟨rest, hp, rfl⟩ | ⟨i, v, rest, -, -, rfl⟩ | ⟨p, r, rest, -, -, rfl⟩ |
    ⟨w, rest, hp, hw⟩
  · exact absurd rfl hl
  · exact ⟨rest, .inr ⟨hp, powerOn_life _⟩⟩
  · exact absurd (writeVertex_life ..) hl
  · exact absurd (writePolygon_life ..) hl
  · rcases hw with ⟨-, rfl⟩ | ⟨-, -, code, rfl⟩ | ⟨hf, i, hd, hx⟩
    · exact absurd rfl hl
    · exact absurd (raiseFault_life ..) hl
    · refine ⟨rest, .inl ⟨w, hp, hf, ?_⟩⟩
      rcases exec_life_ne hx hl with ⟨rfl, ht⟩ | ⟨rfl, hs, ht⟩
      · exact .inl ⟨hd, ht⟩
      · exact .inr ⟨hd, hs, ht⟩

/-- Settles O16: a command is accepted by LIFE (`exec_notReady`, `exec_init`), no operand check finds NOT_READY, and
the inversion of a step gives the moves that change LIFE. -/
theorem lifecycleModes : Obligations.LifecycleModes := by
  unfold Obligations.LifecycleModes
  refine ⟨rfl, fun s i hr hi hf => ?_, fun s t i f hr hf h ht hcode => ?_, fun s => ?_, fun s t => step_life_ne⟩
  · rw [exec_notReady hi hr, raiseFault_of_none hf, faulted]
  · have hc : checkOf i s = some f.code := checkOf_of_exec_fault hr hf h ht
    exact checkOf_ne_notReady i s (hcode ▸ hc)
  · exact ⟨initialise s, exec_init s, initialise_life s, initialise_fault s⟩

end Sys2Proof.Machine
end

section
/-! The cache over a step (20_memory.md R113, 47_scanline_cache.md R504): only a DRAW writes a row, to its own slot,
and INIT, DEINIT and power-on empty the cache. -/

namespace Sys2Proof.Machine

theorem readRow_of_cache_nil (p : Params) {m : Memory} (h : m.cache = []) (k : Nat) :
    readRow p m k = unknownRow p := by
  unfold readRow
  rw [h, Space.get_nil]

/-- What a slot reads as depends on the cache alone, not on VB or PL. -/
theorem readRow_congr (p : Params) {m m' : Memory} (h : m.cache = m'.cache) (k : Nat) :
    readRow p m k = readRow p m' k := by
  unfold readRow
  rw [h]

theorem scanlineCheck_none_iff {p : Params} {y : Nat} : scanlineCheck p y = none ↔ y < p.screenHeight := by
  refine ⟨fun h => Nat.lt_of_not_le fun hle => ?_, scanlineCheck_of_lt⟩
  rw [scanlineCheck_of_le hle] at h
  cases h

/-! ## The moves that change a slot -/

theorem effectOf_readRow_ne {i : Instr} {s : State} {k : Nat}
    (h : readRow s.params (effectOf i s).mem k ≠ readRow s.params s.mem k) :
    ((i = .init ∨ i = .deinit) ∧ readRow s.params (effectOf i s).mem k = unknownRow s.params) ∨
    ∃ y, i = .draw y ∧ k = slotOf s.params y := by
  cases i with
  | init => exact .inl ⟨.inl rfl, readRow_of_cache_nil _ rfl k⟩
  | deinit => exact .inl ⟨.inr rfl, readRow_of_cache_nil _ rfl k⟩
  | reset | submit n | read y => exact absurd (readRow_congr _ (by simp [effectOf]) k) h
  | draw y =>
    refine .inr ⟨y, rfl, by_contra fun hk => h ?_⟩
    rw [effectOf, drawScanline_mem, readRow_writeRow_other _ _ hk]

theorem exec_readRow_ne {i : Instr} {s t : State} {k : Nat} (hx : exec i s = .next t)
    (h : readRow t.params t.mem k ≠ readRow s.params s.mem k) :
    (i = .init ∧ readRow t.params t.mem k = unknownRow t.params) ∨
    (i = .deinit ∧ s.life = .ready ∧ readRow t.params t.mem k = unknownRow t.params) ∨
    (∃ y, i = .draw y ∧ s.life = .ready ∧ y < s.params.screenHeight ∧ k = slotOf s.params y) := by
  rcases exec_cases hx with ⟨hacc, hc, rfl⟩ | ⟨code, -, -, rfl⟩
  · obtain ⟨hparams, -⟩ := effectOf_frame i s
    rw [hparams] at h ⊢
    rcases effectOf_readRow_ne h with ⟨rfl | rfl, hrow⟩ | ⟨y, rfl, hk⟩
    · exact .inl ⟨rfl, hrow⟩
    · exact .inr (.inl ⟨rfl, by simpa using hacc, hrow⟩)
    · exact .inr (.inr ⟨y, rfl, by simpa using hacc, scanlineCheck_none_iff.1 hc, hk⟩)
  · rw [raiseFault_params, raiseFault_mem] at h
    exact absurd rfl h

/-- Settles O53: by the inversion of a step, the moves other than a command or a power-on keep the cache; a word that
is no command or is refused changes FAULT alone; and of the commands' effects only those of INIT, DEINIT and DRAW
touch a slot (`exec_readRow_ne`). -/
theorem onlyTheseMovesChangeTheCache : Obligations.OnlyTheseMovesChangeTheCache := by
  unfold Obligations.OnlyTheseMovesChangeTheCache
  intro s t k h hrow
  rcases step_cases h with ⟨-, rfl⟩ | ⟨rest, hp, rfl⟩ | ⟨i, v, rest, -, -, rfl⟩ | ⟨p, r, rest, -, -, rfl⟩ |
    ⟨w, rest, hp, hw⟩
  · exact absurd rfl hrow
  · exact .inl ⟨rest, hp, readRow_of_cache_nil _ rfl k⟩
  · exact absurd (readRow_congr _ rfl k) hrow
  · exact absurd (readRow_congr _ rfl k) hrow
  · rcases hw with ⟨-, rfl⟩ | ⟨-, -, code, rfl⟩ | ⟨hf, i, hd, hx⟩
    · exact absurd rfl hrow
    · rw [raiseFault_params, raiseFault_mem] at hrow
      exact absurd rfl hrow
    · refine .inr ⟨rest, w, hp, hf, ?_⟩
      rcases exec_readRow_ne hx hrow with ⟨rfl, hu⟩ | ⟨rfl, hl, hu⟩ | ⟨y, rfl, hl, hy, hk⟩
      · exact .inl ⟨hd, hu⟩
      · exact .inr (.inl ⟨hd, hl, hu⟩)
      · exact .inr (.inr ⟨y, hd, hl, hy, hk⟩)

end Sys2Proof.Machine
end

section
/-! The decoder and the fields of a word (30_encoding.md R154, R155, R163): which fields make a word illegal, a
reserved field, or a command; and the step on a word that is no command. -/

namespace Sys2Proof

open Sys2Proof.Laws.EncodingFields (opcodeOf operandOf)

/-! ## Decoding by the fields -/

theorem decode_illegal {w : Word} (h : opcField w < 1 ∨ 6 < opcField w) : decode w = .illegal := by
  unfold decode
  exact if_pos h

/-- Under an opcode of a command, RSV not 0 is a reserved field, and so is IMM not 0 where the command has no
operand. -/
theorem decode_reservedField {w : Word} (h1 : 1 ≤ opcField w) (h6 : opcField w ≤ 6)
    (h : rsvField w ≠ 0 ∨ (opcField w ≤ 3 ∧ immField w ≠ 0)) : decode w = .reservedField := by
  unfold decode
  rw [if_neg (by omega)]
  by_cases hr : rsvField w = 0
  · rw [if_neg (not_not_intro hr), if_pos (h.resolve_left (not_not_intro hr))]
  · rw [if_pos hr]

/-- A word with a command's opcode and operand, and RSV 0, decodes to that command. -/
theorem decode_of_fields {w : Word} {i : Instr} (ho : opcField w = opcodeOf i) (hr : rsvField w = 0)
    (hi : immField w = operandOf i) : decode w = .command i := by
  cases i <;> simp [decode, ho, hr, hi, opcodeOf, operandOf]

/-- Settles O2, clause by clause from the three laws of the decoder, the numbers of the statement being the fields
of the word. -/
theorem decodeFollowsTheFields : Obligations.DecodeFollowsTheFields := by
  unfold Obligations.DecodeFollowsTheFields
  intro w
  rw [← opcField_eq, ← rsvField_eq, ← immField_eq]
  refine ⟨decode_illegal, fun h1 h6 hr => decode_reservedField h1 h6 (.inl hr),
    fun h1 h3 _ hi => decode_reservedField h1 (by omega) (.inr ⟨h3, hi⟩), fun hr hi => ?_, fun hr => ?_⟩
  · exact ⟨fun ho => decode_of_fields ho hr hi, fun ho => decode_of_fields ho hr hi,
      fun ho => decode_of_fields ho hr hi⟩
  · exact ⟨fun ho => decode_of_fields ho hr rfl, fun ho => decode_of_fields ho hr rfl,
      fun ho => decode_of_fields ho hr rfl⟩

end Sys2Proof

namespace Sys2Proof.Machine

/-! ## A word that is no command -/

theorem step_illegal {s : State} {w : Word} {rest : List HostMove} (hp : s.port = .command w :: rest)
    (hf : s.fault = none) (hd : decode w = .illegal) :
    step s = .next (faulted .illegalCommand w { s with port := rest }) := by
  rw [step_command hp, performWord_illegal (by exact hf) hd, raiseFault_of_none (by exact hf), faulted]

theorem step_reservedField {s : State} {w : Word} {rest : List HostMove} (hp : s.port = .command w :: rest)
    (hf : s.fault = none) (hd : decode w = .reservedField) :
    step s = .next (faulted .reservedField w { s with port := rest }) := by
  rw [step_command hp, performWord_reservedField (by exact hf) hd, raiseFault_of_none (by exact hf), faulted]

/-- Settles O8: the fields decide that the word is no command (`decode_illegal`, `decode_reservedField`), and such a
word only records its fault. -/
theorem badWordsFault : Obligations.BadWordsFault := by
  unfold Obligations.BadWordsFault
  intro s w rest hp hf
  rw [← opcField_eq, ← rsvField_eq, ← immField_eq]
  exact ⟨fun h => step_illegal hp hf (decode_illegal h),
    fun h1 h6 h => step_reservedField hp hf (decode_reservedField h1 h6 h)⟩

end Sys2Proof.Machine
end

section
/-! Pixel words (30_encoding.md R161, 20_memory.md R103): the lanes of a color's word, and the bits a contracted
color leaves clear. -/

namespace Sys2Proof.Machine

theorem colorWord_toNat (b0 b1 b2 : Byte) :
    (0#8 ++ b2 ++ b1 ++ b0 : Word).toNat = b0.toNat + 2 ^ 8 * b1.toNat + 2 ^ 16 * b2.toNat := by
  simp only [BitVec.toNat_append]
  rw [← Nat.shiftLeft_add_eq_or_of_lt b0.isLt, ← Nat.shiftLeft_add_eq_or_of_lt b1.isLt,
    ← Nat.shiftLeft_add_eq_or_of_lt b2.isLt]
  simp only [Nat.shiftLeft_eq, BitVec.toNat_ofNat]
  omega

theorem lanes_colorWord (b0 b1 b2 : Byte) :
    lane (0#8 ++ b2 ++ b1 ++ b0) 0 = b0 ∧ lane (0#8 ++ b2 ++ b1 ++ b0) 1 = b1 ∧
    lane (0#8 ++ b2 ++ b1 ++ b0) 2 = b2 ∧ lane (0#8 ++ b2 ++ b1 ++ b0) 3 = 0 := by
  have drop1 {k : Nat} (h : 8 ≤ k) : BitVec.extractLsb' k 8 (0#8 ++ b2 ++ b1 ++ b0) =
      BitVec.extractLsb' (k - 8) 8 (0#8 ++ b2 ++ b1) := BitVec.extractLsb'_append_eq_of_le h
  have drop2 {k : Nat} (h : 8 ≤ k) : BitVec.extractLsb' k 8 (0#8 ++ b2 ++ b1) =
      BitVec.extractLsb' (k - 8) 8 (0#8 ++ b2) := BitVec.extractLsb'_append_eq_of_le h
  refine ⟨BitVec.extractLsb'_append_eq_right, ?_, ?_, ?_⟩
  · exact (drop1 (by decide)).trans BitVec.extractLsb'_append_eq_right
  · exact (drop1 (by decide)).trans ((drop2 (by decide)).trans BitVec.extractLsb'_append_eq_right)
  · exact (drop1 (by decide)).trans ((drop2 (by decide)).trans BitVec.extractLsb'_append_eq_left)

/-- Byte k of a color's serialised word is channel k, and the last byte is 0. -/
theorem pixelBytes_colorWord (b0 b1 b2 : Byte) : pixelBytes (0#8 ++ b2 ++ b1 ++ b0) = [b0, b1, b2, 0] := by
  obtain ⟨h0, h1, h2, h3⟩ := lanes_colorWord b0 b1 b2
  rw [pixelBytes, h0, h1, h2, h3]

/-- The mask 0xF8 of 46_color_codec.md R452 leaves the low three bits of an output channel clear. -/
theorem contractChannel_and_low (c : Word) : contractChannel c &&& 7#8 = 0#8 := by
  calc contractChannel c &&& 7#8
      = (c <<< 2).setWidth 8 &&& (0xF8#8 &&& 7#8) := by
        rw [contractChannel, BitVec.truncate_eq_setWidth, BitVec.setWidth_and, BitVec.and_assoc]
        rfl
    _ = 0#8 := BitVec.and_zero

/-- The mask 0xFF070707 acts on a color's word lane by lane. -/
theorem colorWord_and_mask (b0 b1 b2 : Byte) : (0#8 ++ b2 ++ b1 ++ b0 : Word) &&& 0xFF070707#32 =
    0#8 ++ (b2 &&& 7#8) ++ (b1 &&& 7#8) ++ (b0 &&& 7#8) := by
  have mask_eq : 0xFF070707#32 = 0xFF#8 ++ 7#8 ++ 7#8 ++ 7#8 := rfl
  rw [mask_eq, BitVec.and_append, BitVec.and_append, BitVec.and_append, BitVec.zero_and]

/-- Settles O52: a color's word by its number, its bytes and the mask of its clear bits; the words of the other two
cells as the model gives them. -/
theorem pixelWords : Obligations.PixelWords := by
  unfold Obligations.PixelWords
  refine ⟨fun b0 b1 b2 => ⟨_, rfl, colorWord_toNat b0 b1 b2, pixelBytes_colorWord b0 b1 b2⟩, rfl, rfl, by decide,
    fun c => ⟨_, rfl, ?_⟩⟩
  rw [colorWord_and_mask, contractChannel_and_low, contractChannel_and_low, contractChannel_and_low]
  rfl

end Sys2Proof.Machine
end

section
/-! The edge builder (41_edge_builder.md R200, R201, R202, R204): the edge a side gives, the sides of a polygon, and
the list of the sides polygon by polygon. -/

namespace Sys2Proof.Machine

/-! ## One side -/

theorem makeEdge_of_le {p : Nat} {a b : Vertex} (h : b.y.toInt ≤ a.y.toInt) :
    makeEdge p a b = ⟨a.y, attributesOf a, b.y, attributesOf b, p⟩ :=
  if_pos h

theorem makeEdge_of_lt {p : Nat} {a b : Vertex} (h : a.y.toInt < b.y.toInt) :
    makeEdge p a b = ⟨b.y, attributesOf b, a.y, attributesOf a, p⟩ :=
  if_neg (Int.not_le.2 h)

/-- Settles O21, by the two orders of the vertices' y; `attributesOf` is the set of attributes written out. -/
theorem edgesAreOriented : Obligations.EdgesAreOriented := by
  unfold Obligations.EdgesAreOriented
  exact fun p a b => ⟨makeEdge_of_le, makeEdge_of_lt, makeEdge_oriented p a b⟩

/-! ## The sides of a polygon -/

theorem lt_of_getElem?_v {r : Polygon} {k a : Nat} (h : r.v[k]? = some a) : k < r.n :=
  (List.getElem?_eq_some_iff.1 h).1

/-- Edge k is the side from the vertex at k to the vertex at k+1, counted around the polygon. -/
theorem getElem?_polygonEdges {vertex : Nat → Vertex} {p k a b : Nat} {r : Polygon} (ha : r.v[k]? = some a)
    (hb : r.v[(k + 1) % r.n]? = some b) :
    (polygonEdges vertex p r)[k]? = some (makeEdge p (vertex a) (vertex b)) := by
  have hk : k < r.n := lt_of_getElem?_v ha
  rw [polygonEdges, List.getElem?_map, List.getElem?_range hk, Option.map_some]
  simp only [List.getD_eq_getElem?_getD, ha, hb, Option.getD_some]

/-- Before the last side no index wraps around. -/
theorem getElem?_polygonEdges_of_next {vertex : Nat → Vertex} {p k a b : Nat} {r : Polygon}
    (ha : r.v[k]? = some a) (hb : r.v[k + 1]? = some b) :
    (polygonEdges vertex p r)[k]? = some (makeEdge p (vertex a) (vertex b)) :=
  getElem?_polygonEdges ha (by rwa [Nat.mod_eq_of_lt (lt_of_getElem?_v hb)])

/-- The last side closes the polygon: n mod n is 0. -/
theorem getLast?_polygonEdges {vertex : Nat → Vertex} {p a b : Nat} {r : Polygon} (ha : r.v.getLast? = some a)
    (hb : r.v.head? = some b) :
    (polygonEdges vertex p r).getLast? = some (makeEdge p (vertex a) (vertex b)) := by
  rw [List.getLast?_eq_getElem?] at ha ⊢
  rw [List.head?_eq_getElem?] at hb
  have wrap : (r.n - 1 + 1) % r.n = 0 := by rw [Nat.sub_add_cancel (lt_of_getElem?_v hb), Nat.mod_self]
  rw [length_polygonEdges]
  exact getElem?_polygonEdges ha (by rwa [wrap])

theorem oriented_of_mem_polygonEdges {vertex : Nat → Vertex} {p : Nat} {r : Polygon} {e : Edge}
    (h : e ∈ polygonEdges vertex p r) : e.oriented := by
  obtain ⟨k, -, rfl⟩ := List.mem_map.1 h
  exact makeEdge_oriented p _ _

theorem shapeAdmitted_iff_eq {r : Polygon} : shapeAdmitted r = true ↔ r.n = 3 ∨ r.n = 4 := by
  rw [shapeAdmitted_iff]
  omega

/-! ## The polygons in increasing index -/

@[simp] theorem buildEdges_zero (m : Memory) (k : Nat) : buildEdges m k 0 = [] := rfl

theorem buildEdges_succ (m : Memory) (k n : Nat) :
    buildEdges m k (n + 1) = buildEdges m k n ++ polygonEdges (readVertex m k) n (readPolygon m k n) := by
  rw [buildEdges, List.range_succ, List.flatMap_append, List.flatMap_singleton, ← buildEdges]

/-- Settles O20: the sides of a polygon one by one, the last by its wrap around, and `BuildEdges` by its recursion over
the polygons. -/
theorem polygonSides : Obligations.PolygonSides := by
  unfold Obligations.PolygonSides
  refine ⟨fun vertex p r => ⟨length_polygonEdges vertex p r, ?_, ?_, ?_, shapeAdmitted_iff_eq⟩, fun m k n => ?_⟩
  · exact fun k a b => getElem?_polygonEdges_of_next
  · exact fun a b => getLast?_polygonEdges
  · exact fun e => oriented_of_mem_polygonEdges
  · exact ⟨buildEdges_zero m k, buildEdges_succ m k n⟩

end Sys2Proof.Machine
end

section
/-! The edge table (42_edge_table.md): the sort (R250), its rebuilding by SUBMIT and its retirement by DRAW (R252),
and the classes of an edge (R255). -/

namespace Sys2Proof.Machine

/-! ## The sort -/

/-- Settles O23: sorting permutes the list, and `edgeBefore`, by which the result is sorted, is the signed
lexicographic order on (y0, y1). -/
theorem edgeSort : Obligations.EdgeSort := by
  unfold Obligations.EdgeSort
  exact fun order l => ⟨sortEdges_perm order l, (sortEdges_sorted order l).imp edgeBefore_iff.1⟩

/-! ## The classes, by the rows of the ends -/

theorem classify_eq_expired_iff {e : Edge} {y : Nat} : classify e y = .expired ↔ (y : Int) < rowOf e.y1 := by
  unfold classify
  split
  · simpa
  · split <;> simp <;> omega

theorem classify_eq_notYet_iff {e : Edge} {y : Nat} :
    classify e y = .notYet ↔ rowOf e.y1 ≤ (y : Int) ∧ rowOf e.y0 < (y : Int) := by
  unfold classify
  split
  · simp; omega
  · split <;> simp <;> omega

theorem classify_eq_active_iff {e : Edge} {y : Nat} :
    classify e y = .active ↔ rowOf e.y1 ≤ (y : Int) ∧ (y : Int) ≤ rowOf e.y0 := by
  unfold classify
  split
  · simp; omega
  · split <;> simp <;> omega

/-- Settles O26: the characterisations of the three classes, with a row written as a quotient; an oriented edge is
never expired and not yet active, as its end lies in no greater row than its start. -/
theorem classification : Obligations.Classification := by
  unfold Obligations.Classification
  intro e y
  simp only [← rowOf_eq]
  refine ⟨classify_eq_expired_iff, classify_eq_notYet_iff, classify_eq_active_iff, fun ho hexpired hnotYet => ?_⟩
  have hrows : rowOf e.y1 ≤ rowOf e.y0 := rowOf_mono ho
  omega

/-! ## SUBMIT rebuilds the table, DRAW only thins it -/

/-- SUBMIT of admitted polygons is performed (60_exceptions.md R601, 42_edge_table.md R252). -/
theorem exec_submit_of_admitted {s : State} {n : Nat} (hr : s.life = .ready) (hn : n ≤ s.params.maxPolygons)
    (ha : ∀ q < n, polygonAdmitted s q) : exec (.submit n) s = .next (rebuildEdges n s) := by
  have hcheck : submitCheck n s = none :=
    submitCheck_none_iff.2 ⟨hn, fun q hq => polygonAdmitted_iff.1 (ha q hq)⟩
  exact exec_effect (i := .submit n) hr hcheck

/-- The table a DRAW leaves of a known one is that table without the expired edges (42_edge_table.md R256). -/
theorem drawScanline_et_of_known {s : State} {l : List Edge} (h : s.et = .known l) (y : Nat) :
    (drawScanline y s).et = .known (l.filter (fun e => decide (classify e y ≠ .expired))) := by
  rw [drawScanline_et, assembled, assemble_et, h, edgeTableOf]

/-- A command DRAW, performed or faulting, leaves a sublist of the table it finds (42_edge_table.md R252). -/
theorem exec_draw_et_sublist {s t : State} {y : Nat} {l : List Edge} (h : s.et = .known l)
    (hx : exec (.draw y) s = .next t) : ∃ l', t.et = .known l' ∧ l'.Sublist l := by
  rcases exec_cases hx with ⟨-, -, rfl⟩ | ⟨code, -, -, rfl⟩
  · exact ⟨_, drawScanline_et_of_known h y, List.filter_sublist⟩
  · exact ⟨l, (raiseFault_et ..).trans h, List.Sublist.refl l⟩

/-- Settles O17: SUBMIT of admitted polygons is `rebuildEdges`, whose frame is read off field by field, and a DRAW
filters the table it finds. -/
theorem submitRebuildsTheEdgeTable : Obligations.SubmitRebuildsTheEdgeTable := by
  unfold Obligations.SubmitRebuildsTheEdgeTable
  refine ⟨fun s n hr hn ha => ⟨_, exec_submit_of_admitted hr hn ha, rebuildEdges_et n s, ?_⟩, fun s t y l => ?_⟩
  · simp
  · exact exec_draw_et_sublist

end Sys2Proof.Machine
end

section
/-! The span assembler: an edge met by the walk (43_span_assembler.md R302), and the endpoint that opens or closes the
span of its polygon (R304, R305). -/

namespace Sys2Proof.Machine

/-! ## One edge -/

/-- Settles O28: a zero-height edge leaves the sweep as it is, and any other has a sample, `sampleEdge` being `interp` of
the edge's ends at the scanline's grid point, which `assembleEdge` places. -/
theorem zeroHeightEdgesAreDiscarded : Obligations.ZeroHeightEdgesAreDiscarded := by
  unfold Obligations.ZeroHeightEdgesAreDiscarded
  intro L y e sw
  refine ⟨fun h => assembleEdge_of_eq h L y sw, fun h => ?_⟩
  obtain ⟨ep, k, hs⟩ := sampleEdge_of_ne h L y sw.draws
  rw [← gridPoint_eq]
  exact ⟨ep, k, hs, assembleEdge_of_ne h hs⟩

/-! ## One endpoint -/

theorem closedWith_of_lt {ep : Endpoint} {a : Span} (h : ep.x.toInt < a.ep0.x.toInt) :
    closedWith ep a = ⟨ep, a.ep0, a.poly, true⟩ :=
  if_pos h

theorem closedWith_of_le {ep : Endpoint} {a : Span} (h : a.ep0.x.toInt ≤ ep.x.toInt) :
    closedWith ep a = ⟨a.ep0, ep, a.poly, true⟩ :=
  if_neg (Int.not_lt.2 h)

/-- The span that is closed, where BK names one of the table. -/
theorem getElem?_closeSpan_same {k : Nat} {sw : Sweep} {a : Span} (h : sw.st[k]? = some a) (p : Nat)
    (ep : Endpoint) :
    (closeSpan p k ep sw).st[k]? = some (closedWith ep a) := by
  rw [closeSpan, List.getElem?_modify_eq, h, Option.map_eq_map, Option.map_some]

theorem getElem?_closeSpan_other {j k : Nat} (h : j ≠ k) (p : Nat) (ep : Endpoint) (sw : Sweep) :
    (closeSpan p k ep sw).st[j]? = sw.st[j]? :=
  List.getElem?_modify_ne _ _ h.symm

/-- Placing an endpoint touches no other polygon's entry of BK, whether it opens a span or closes one. -/
theorem get_placeEndpoint_bk_other {p q : Nat} (h : q ≠ p) (ep : Endpoint) (sw : Sweep) :
    Space.get (placeEndpoint p ep sw).bk q = Space.get sw.bk q := by
  cases hp : Space.get sw.bk p with
  | none =>
    rw [placeEndpoint_of_none hp]
    exact Space.get_set_other sw.bk h _
  | some k =>
    rw [placeEndpoint_of_some hp]
    exact Space.get_erase_other sw.bk h

/-- Settles O29: without an open span the endpoint goes through `openSpan`, with one through `closeSpan`, whose span
at the index BK names is `closedWith` by the order of the two x; other polygons' entries of BK stay. -/
theorem openAndCloseSpan : Obligations.OpenAndCloseSpan := by
  unfold Obligations.OpenAndCloseSpan
  intro p ep sw
  refine ⟨fun hp => ?opens, fun k a hp ha => ?closes, fun q hq => get_placeEndpoint_bk_other hq ep sw⟩
  case opens =>
    rw [placeEndpoint_of_none hp]
    exact ⟨rfl, Space.get_set_same sw.bk p _⟩
  case closes =>
    rw [placeEndpoint_of_some hp, getElem?_closeSpan_same ha]
    exact ⟨Space.get_erase_same sw.bk p, List.length_modify _ _ _,
      fun j hj => getElem?_closeSpan_other hj p ep sw,
      fun hlt => congrArg some (closedWith_of_lt hlt), fun hle => congrArg some (closedWith_of_le hle)⟩

end Sys2Proof.Machine
end

section
/-! The depth resolver (44_depth_resolver.md): the sort (R350), the winner Pick's scan from the tail finds (R354 to
R356), and the row of the column sweep (R352, R358). -/

namespace Sys2Proof.Machine

/-! ## The sort -/

/-- Settles O33: sorting permutes the list, and `spanBefore`, by which the result is sorted, is the signed
lexicographic order on (ep[0].x, ep[0].w). -/
theorem spanSort : Obligations.SpanSort := by
  unfold Obligations.SpanSort
  exact fun order l => ⟨sortSpans_perm order l, (sortSpans_sorted order l).imp spanBefore_iff.1⟩

/-! ## Candidates -/

theorem candidate_iff {X : Nat} {s : Span} :
    Candidate X s ↔ colOf s.ep0.x ≤ (X : Int) ∧ (X : Int) ≤ colOf s.ep1.x ∧ s.ep0.x ≠ s.ep1.x := by
  rw [Candidate, covers_iff, and_assoc]

theorem not_candidate_of_lt {X : Nat} {s : Span} (h : (X : Int) < colOf s.ep0.x) : ¬ Candidate X s :=
  fun hc => Int.not_le.2 h (candidate_iff.1 hc).1

theorem not_candidate_of_endsBefore {X : Nat} {s : Span} (h : endsBefore X s = true) : ¬ Candidate X s :=
  fun hc => Int.not_le.2 (endsBefore_iff.1 h) (candidate_iff.1 hc).2.1

/-- A span that starts at or before the column and is no candidate there ends before it or has no width. -/
theorem endsBefore_or_eq_of_not_candidate {X : Nat} {s : Span} (hs : colOf s.ep0.x ≤ (X : Int))
    (h : ¬ Candidate X s) : endsBefore X s = true ∨ s.ep0.x = s.ep1.x := by
  rw [candidate_iff] at h
  rw [endsBefore_iff]
  by_cases he : s.ep0.x = s.ep1.x
  · exact .inr he
  · exact .inl (Int.not_le.1 fun hle => h ⟨hs, hle, he⟩)

theorem colOf_start_le_of_endsBefore {X : Nat} {s : Span} (h : endsBefore X s = true) (hw : s.wellOrdered) :
    colOf s.ep0.x ≤ (X : Int) :=
  (colOf_mono hw.2).trans (endsBefore_iff.1 h).le

theorem endsBefore_mono {X X' : Nat} {s : Span} (hX : X ≤ X') (h : endsBefore X s = true) :
    endsBefore X' s = true := by
  rw [endsBefore_iff] at *
  omega

/-- In a sorted table no span before one that starts right of the column is a candidate: it starts no further left. -/
theorem not_candidate_of_sorted {X i j : Nat} {st : List Span} (hst : SpansSorted st) {a s : Span}
    (ha : st[i]? = some a) (hs : st[j]? = some s) (hij : i ≤ j) (h : (X : Int) < colOf s.ep0.x) :
    ¬ Candidate X a := by
  rcases Nat.eq_or_lt_of_le hij with rfl | hlt
  · obtain rfl : a = s := Option.some.inj (ha.symm.trans hs)
    exact not_candidate_of_lt h
  · obtain ⟨hi, rfl⟩ := List.getElem?_eq_some_iff.1 ha
    obtain ⟨hj, rfl⟩ := List.getElem?_eq_some_iff.1 hs
    have hbefore := spanBefore_iff.1 (List.pairwise_iff_getElem.1 hst i j hi hj hlt)
    exact not_candidate_of_lt (h.trans_le (colOf_mono (by omega)))

/-! ## One span examined by Pick -/

section
variable {X j : Nat} {st : List Span} {s : Span}

/-- The scan ends at a span that starts right of the column (44_depth_resolver.md R354). -/
theorem pickLoop_succ_of_lt (hj : st[j]? = some s) (h : (X : Int) < colOf s.ep0.x) (L : Interpolation)
    (best : Option (Nat × Word)) (k : Nat) : pickLoop L X st (j + 1) best k = (best, k) := by
  simp [pickLoop, hj, h]

/-- The scan passes over a span that starts in time and is no candidate, and draws nothing for it. -/
theorem pickLoop_succ_of_not_candidate (hj : st[j]? = some s) (hs : colOf s.ep0.x ≤ (X : Int))
    (h : ¬ Candidate X s) (L : Interpolation) (best : Option (Nat × Word)) (k : Nat) :
    pickLoop L X st (j + 1) best k = pickLoop L X st j best k := by
  rcases endsBefore_or_eq_of_not_candidate hs h with he | he
  · simp [pickLoop, hj, Int.not_lt.2 hs, he]
  · simp [pickLoop, hj, Int.not_lt.2 hs, sampleSpan_of_eq he]

/-- A candidate is weighed against the best by its depth term (44_depth_resolver.md R356). -/
theorem pickLoop_succ_of_candidate (hj : st[j]? = some s) (h : Candidate X s) (L : Interpolation)
    (best : Option (Nat × Word)) (k : Nat) :
    ∃ k', pickLoop L X st (j + 1) best k = pickLoop L X st j (better best j (spanDepth L X s)) k' := by
  obtain ⟨hstart, hend, hne⟩ := candidate_iff.1 h
  obtain ⟨e, k', hsample, hdepth⟩ := sampleSpan_of_ne hne L X k
  have hends : ¬ endsBefore X s = true := fun he => not_candidate_of_endsBefore he h
  exact ⟨k', by simp [pickLoop, hj, Int.not_lt.2 hstart, hends, hsample, hdepth]⟩

end

/-! ## The winner -/

/-- `best` is right for the spans at index j and above: none where none is a candidate, otherwise a candidate among
them with its depth term, no candidate being deeper and none nearer the tail as deep (44_depth_resolver.md R356). -/
def DeepestFrom (L : Interpolation) (X : Nat) (st : List Span) (j : Nat) : Option (Nat × Word) → Prop
  | none => ∀ (i : Nat) (s : Span), j ≤ i → st[i]? = some s → ¬ Candidate X s
  | some (b, w) => j ≤ b ∧ (∃ s, st[b]? = some s ∧ Candidate X s ∧ w = spanDepth L X s) ∧
      ∀ (i : Nat) (s : Span), j ≤ i → st[i]? = some s → Candidate X s →
        (spanDepth L X s).toInt ≤ w.toInt ∧ (b < i → (spanDepth L X s).toInt < w.toInt)

theorem better_of_lt {b j : Nat} {bw w : Word} (h : bw.toInt < w.toInt) : better (some (b, bw)) j w = some (j, w) :=
  if_pos h

theorem better_of_le {b j : Nat} {bw w : Word} (h : w.toInt ≤ bw.toInt) : better (some (b, bw)) j w = some (b, bw) :=
  if_neg (Int.not_lt.2 h)

section
variable {L : Interpolation} {X j : Nat} {st : List Span} {best : Option (Nat × Word)}

theorem deepestFrom_length (L : Interpolation) (X : Nat) (st : List Span) :
    DeepestFrom L X st st.length none := by
  intro i s hi hs
  rw [List.getElem?_eq_none hi] at hs
  cases hs

/-- Where no span from index j' to below index j is a candidate, the best from j on is the best from j' on. -/
theorem DeepestFrom.extend {j' : Nat} (h : DeepestFrom L X st j best) (hj : j' ≤ j)
    (hno : ∀ (i : Nat) (s : Span), j' ≤ i → i < j → st[i]? = some s → ¬ Candidate X s) :
    DeepestFrom L X st j' best := by
  match best, h with
  | none, h =>
    intro i s hi hs
    rcases Nat.lt_or_ge i j with hlt | hge
    · exact hno i s hi hlt hs
    · exact h i s hge hs
  | some (b, w), ⟨hb, hbest, hdeep⟩ =>
    refine ⟨hj.trans hb, hbest, fun i s hi hs hc => ?_⟩
    rcases Nat.lt_or_ge i j with hlt | hge
    · exact absurd hc (hno i s hi hlt hs)
    · exact hdeep i s hge hs hc

/-- A candidate at index j deeper than every one nearer the tail is the best from j on. -/
theorem deepestFrom_of_deeper {s : Span} (hs : st[j]? = some s) (hc : Candidate X s)
    (hdeeper : ∀ (i : Nat) (a : Span), j < i → st[i]? = some a → Candidate X a →
      (spanDepth L X a).toInt < (spanDepth L X s).toInt) :
    DeepestFrom L X st j (some (j, spanDepth L X s)) := by
  refine ⟨le_refl j, ⟨s, hs, hc, rfl⟩, fun i a hi ha hca => ?_⟩
  rcases Nat.eq_or_lt_of_le hi with rfl | hlt
  · obtain rfl : s = a := Option.some.inj (hs.symm.trans ha)
    exact ⟨le_refl _, fun hjj => absurd hjj (lt_irrefl j)⟩
  · have hless := hdeeper i a hlt ha hca
    exact ⟨hless.le, fun _ => hless⟩

/-- A candidate at index j is weighed by its depth: equal depth leaves the best, which is nearer the tail. -/
theorem DeepestFrom.weigh {s : Span} (h : DeepestFrom L X st (j + 1) best) (hs : st[j]? = some s)
    (hc : Candidate X s) : DeepestFrom L X st j (better best j (spanDepth L X s)) := by
  match best, h with
  | none, h => exact deepestFrom_of_deeper hs hc fun i a hi ha hca => absurd hca (h i a hi ha)
  | some (b, w), ⟨hb, hbest, hdeep⟩ =>
    rcases Int.lt_or_le w.toInt (spanDepth L X s).toInt with hlt | hle
    · rw [better_of_lt hlt]
      exact deepestFrom_of_deeper hs hc fun i a hi ha hca => (hdeep i a hi ha hca).1.trans_lt hlt
    · rw [better_of_le hle]
      refine ⟨Nat.le_of_succ_le hb, hbest, fun i a hi ha hca => ?_⟩
      rcases Nat.eq_or_lt_of_le hi with rfl | hji
      · obtain rfl : s = a := Option.some.inj (hs.symm.trans ha)
        exact ⟨hle, fun hbj => absurd hb (Nat.not_le.2 (Nat.lt_succ_of_lt hbj))⟩
      · exact hdeep i a hji ha hca

end

/-- Pick's loop over a sorted table: where it stops early, no span further to the front is a candidate. -/
theorem pickLoop_deepestFrom {L : Interpolation} {X j : Nat} {st : List Span} (hst : SpansSorted st)
    (hj : j ≤ st.length) {best : Option (Nat × Word)} (h : DeepestFrom L X st j best) (k : Nat) :
    DeepestFrom L X st 0 (pickLoop L X st j best k).1 := by
  induction j generalizing best k with
  | zero => exact h
  | succ j ih =>
    have hs : st[j]? = some st[j] := List.getElem?_eq_getElem hj
    by_cases hlt : (X : Int) < colOf st[j].ep0.x
    · rw [pickLoop_succ_of_lt hs hlt]
      exact h.extend (Nat.zero_le _) fun i a _ hi ha => not_candidate_of_sorted hst ha hs (by omega) hlt
    · by_cases hc : Candidate X st[j]
      · obtain ⟨k', hloop⟩ := pickLoop_succ_of_candidate hs hc L best k
        rw [hloop]
        exact ih (by omega) (h.weigh hs hc) k'
      · rw [pickLoop_succ_of_not_candidate hs (Int.not_lt.1 hlt) hc]
        refine ih (by omega) (h.extend (Nat.le_succ j) fun i a hi hlt' ha => ?_) k
        obtain rfl : i = j := by omega
        rwa [← Option.some.inj (hs.symm.trans ha)]

/-- Pick in a sorted table (44_depth_resolver.md R354 to R356). -/
theorem pick_deepestFrom {st : List Span} (hst : SpansSorted st) (L : Interpolation) (X k : Nat) :
    DeepestFrom L X st 0 (pick L X st k).1 :=
  pickLoop_deepestFrom hst (le_refl _) (deepestFrom_length L X st) k

theorem pick_eq_none_iff {st : List Span} (hst : SpansSorted st) (L : Interpolation) (X k : Nat) :
    (pick L X st k).1 = none ↔ ∀ s ∈ st, ¬ Candidate X s := by
  have h := pick_deepestFrom hst L X k
  cases hp : (pick L X st k).1 with
  | none =>
    rw [hp] at h
    refine iff_of_true rfl fun s hs => ?_
    obtain ⟨i, hi⟩ := List.mem_iff_getElem?.1 hs
    exact h i s (Nat.zero_le i) hi
  | some best =>
    rw [hp] at h
    obtain ⟨-, ⟨s, hs, hc, -⟩, -⟩ := h
    exact iff_of_false (by simp) fun hno => hno s (List.mem_of_getElem? hs) hc

/-- Settles O34: a candidate by its columns, and Pick by the invariant `DeepestFrom` of its loop, which at index 0
speaks of the whole table. -/
theorem pickFindsTheDeepestCandidate : Obligations.PickFindsTheDeepestCandidate := by
  unfold Obligations.PickFindsTheDeepestCandidate
  refine ⟨fun X s => ?_, fun L X st k hst => ⟨pick_eq_none_iff hst L X k, fun b w hp => ?_⟩⟩
  · rw [candidate_iff, colOf_eq, colOf_eq]
  · have h := pick_deepestFrom hst L X k
    rw [hp] at h
    obtain ⟨-, ⟨s, hs, hc, hw⟩, hdeep⟩ := h
    exact ⟨s, hs, hc, hw, fun j a => hdeep j a (Nat.zero_le j)⟩

/-! ## Spans that do not show at a column -/

/-- Spans at the tail that have ended do not change what Pick answers (44_depth_resolver.md R360). -/
theorem pick_append_of_endsBefore {X : Nat} {post : List Span}
    (hpost : ∀ s ∈ post, endsBefore X s = true ∧ s.wellOrdered) (L : Interpolation) (st : List Span) (k : Nat) :
    pick L X (st ++ post) k = pick L X st k := by
  induction post using List.reverseRecOn with
  | nil => rw [List.append_nil]
  | append_singleton post s ih =>
    obtain ⟨hends, hordered⟩ := hpost s (by simp)
    have hlast : (st ++ post ++ [s])[(st ++ post).length]? = some s := List.getElem?_concat_length
    rw [← ih fun a ha => hpost a (by simp [ha]), ← List.append_assoc, pick, List.length_append,
      List.length_singleton, pickLoop_succ_of_not_candidate hlast (colOf_start_le_of_endsBefore hends hordered)
        (not_candidate_of_endsBefore hends), pickLoop_append L X _ _ (le_refl _), ← pick]

theorem shade_append {st : List Span} {b : Nat} (hb : b < st.length) (L : Interpolation) (X : Nat)
    (post : List Span) (k : Nat) : shade L X (st ++ post) b k = shade L X st b k := by
  unfold shade
  rw [List.getElem?_append_left hb]

theorem resolveCell_append_of_endsBefore {X : Nat} {post : List Span}
    (hpost : ∀ s ∈ post, endsBefore X s = true ∧ s.wellOrdered) (L : Interpolation) (st : List Span) (k : Nat) :
    resolveCell L X (st ++ post) k = resolveCell L X st k := by
  unfold resolveCell
  rw [pick_append_of_endsBefore hpost]
  split
  case h_1 => rfl
  case h_2 b w k' hp => exact shade_append (pick_index (congrArg Prod.fst hp)) L X post k'

/-- A column at which no span is a candidate is `Unwritten` (44_depth_resolver.md R358). -/
theorem resolveCell_of_no_candidate {X : Nat} {st : List Span} (hst : SpansSorted st)
    (hno : ∀ s ∈ st, ¬ Candidate X s) (L : Interpolation) (k : Nat) : (resolveCell L X st k).1 = .unwritten := by
  have hp := (pick_eq_none_iff hst L X k).2 hno
  unfold resolveCell
  split
  case h_1 => rfl
  case h_2 hs => rw [hs] at hp; cases hp

/-! ## The row of the column sweep -/

/-- The i-th cell of a sweep is that of its column in the spans left alive there, with the draws of the i columns
before it. -/
theorem getElem?_resolveFrom (L : Interpolation) {i n : Nat} (hi : i < n) (X : Nat) (st : List Span) (k : Nat) :
    (resolveFrom L n X st k).row[i]? =
      some (resolveCell L (X + i) (resolveFrom L (i + 1) X st k).st (resolveFrom L i X st k).draws).1 := by
  induction i generalizing n X st k with
  | zero =>
    obtain ⟨n, rfl⟩ := Nat.exists_eq_succ_of_ne_zero hi.ne'
    rfl
  | succ i ih =>
    obtain ⟨n, rfl⟩ := Nat.exists_eq_succ_of_ne_zero (Nat.ne_zero_of_lt hi)
    have hrest := ih (Nat.lt_of_succ_lt_succ hi) (X + 1) (retireSpans X st)
      (resolveCell L X (retireSpans X st) k).2
    rw [Nat.add_assoc, Nat.add_comm 1 i] at hrest
    exact hrest

/-- What a sweep retires has ended before its last column, and so before every later one (44_depth_resolver.md
R353, R360). -/
theorem resolveFrom_split (L : Interpolation) {n X c : Nat} (hc : X + n ≤ c + 1) (st : List Span) (k : Nat) :
    ∃ post, st = (resolveFrom L n X st k).st ++ post ∧ ∀ s ∈ post, endsBefore c s = true := by
  induction n generalizing X st k with
  | zero => exact ⟨[], (List.append_nil st).symm, by simp⟩
  | succ n ih =>
    obtain ⟨retired, hst, hretired⟩ := retireSpans_split X st
    obtain ⟨later, hlive, hlater⟩ :=
      ih (X := X + 1) (by omega) (retireSpans X st) (resolveCell L X (retireSpans X st) k).2
    refine ⟨later ++ retired, ?_, fun s hs => ?_⟩
    · rw [← List.append_assoc]
      exact hst.trans (congrArg (· ++ retired) hlive)
    · rcases List.mem_append.1 hs with h | h
      · exact hlater s h
      · exact endsBefore_mono (by omega) (hretired s h)

/-- The cells of a row, each from the spans left alive at its column. -/
theorem getElem?_resolve {p : Params} {X : Nat} (hX : X < p.width) (st : List Span) (k : Nat) :
    (resolve p st k).row[X]? =
      some (resolveCell p.interpolation X
        (resolveFrom p.interpolation (X + 1) 0 (sortSpans p.spanTieOrder st) k).st
        (resolveFrom p.interpolation X 0 (sortSpans p.spanTieOrder st) k).draws).1 := by
  have h := getElem?_resolveFrom p.interpolation hX 0 (sortSpans p.spanTieOrder st) k
  rwa [Nat.zero_add] at h

/-- Settles O37: the spans alive at a column are a part of the sorted table, so they have no candidate that it has
not; and the part retired has ended, so it does not show in the column's cell. -/
theorem everyColumnIsWritten : Obligations.EveryColumnIsWritten := by
  unfold Obligations.EveryColumnIsWritten
  intro p st k
  refine ⟨length_resolveFrom .., resolveFrom_written _ _ _ _ _, fun X hX hno => ?unwritten,
    fun hordered X hX => ?cell⟩
  case unwritten =>
    have halive := resolveFrom_sublist p.interpolation (X + 1) 0 (sortSpans p.spanTieOrder st) k
    have hsorted := (sortSpans_sorted p.spanTieOrder st).sublist halive
    rw [getElem?_resolve hX, resolveCell_of_no_candidate hsorted fun s hs => hno s (mem_sortSpans.1 (halive.subset hs))]
  case cell =>
    obtain ⟨post, hsplit, hpost⟩ := resolveFrom_split p.interpolation (n := X + 1) (X := 0) (c := X) (by omega)
      (sortSpans p.spanTieOrder st) k
    have hends : ∀ s ∈ post, endsBefore X s = true ∧ s.wellOrdered := fun s hs =>
      ⟨hpost s hs, hordered s (mem_sortSpans.1 (hsplit ▸ List.mem_append_right _ hs))⟩
    rw [getElem?_resolve hX, ← resolveCell_append_of_endsBefore hends, ← hsplit]

end Sys2Proof.Machine
end

section
/-! The interpolator between equal depths (45_interpolator.md R405). -/

namespace Sys2Proof.Machine

/-- A sample whose divisor is not 0 draws no free value (45_interpolator.md R408). -/
theorem drawsOf_of_ne {L : Interpolation} {A B : Endpoint} {q : Position}
    (h : zeroDivisor L A.w.toInt B.w.toInt q = false) : drawsOf L A B q = 0 := by
  simp [drawsOf, h]

/-- Between ends of one depth, not 0, the divisor is not 0 (45_interpolator.md R405). -/
theorem zeroDivisor_of_equal_depths {q : Position} (hi : q.inside) {A B : Endpoint} (hAB : A.w = B.w) (hw : A.w ≠ 0)
    (L : Interpolation) : zeroDivisor L A.w.toInt B.w.toInt q = false := by
  rw [← hAB, zeroDivisor_same hi]
  exact decide_eq_false ((toInt_eq_zero_iff A.w).not.2 hw)

/-- Between ends of one depth, not 0, every attribute is the linear interpolation of the ends' (45_interpolator.md
R405). -/
theorem perspective_of_equal_depths {q : Position} (hi : q.inside) {A B : Endpoint} (hAB : A.w = B.w) (hw : A.w ≠ 0)
    (L : Interpolation) (f : Endpoint → Word) (n k : Nat) :
    perspective L A B f n q k = wrap32 (lerp L (f A).toInt (f B).toInt q) := by
  rw [perspective_of_ne (zeroDivisor_of_equal_depths hi hAB hw L), ← hAB,
    quotient_same hi ((toInt_eq_zero_iff A.w).not.2 hw)]

/-- Settles O46: the equal depths make the divisor not 0, so that nothing is drawn, and cancel in each attribute's
quotient; the sample's position is inside the range because ca is not cb. -/
theorem equalDepthLaw : Obligations.EqualDepthLaw := by
  unfold Obligations.EqualDepthLaw
  intro L A B ca cb p k hne hAB hw
  have hi := position_inside hne p
  have hattr := perspective_of_equal_depths hi hAB hw L
  refine ⟨sampleAt L A B (position ca cb p) k, ?_, hattr (fun e => e.c.ch0) 0 k, hattr (fun e => e.c.ch1) 1 k,
    hattr (fun e => e.c.ch2) 2 k, hattr (fun e => e.s) 3 k, hattr (fun e => e.t) 4 k⟩
  rw [interp_of_ne hne, drawsOf_of_ne (zeroDivisor_of_equal_depths hi hAB hw L), Nat.add_zero]

end Sys2Proof.Machine
end

section
/-! The color codec (46_color_codec.md R451, R452, R453): what its masks keep of a number, and the values of an
expanded and of a contracted channel. -/

namespace Sys2Proof.Machine

/-- A mask of `n` ones from bit `i` up keeps that field of a number, in its place. -/
theorem and_fieldMask (x n i : Nat) : x &&& (2 ^ n - 1) <<< i = x / 2 ^ i % 2 ^ n * 2 ^ i := by
  rw [← Nat.shiftRight_eq_div_pow, ← Nat.shiftLeft_eq, ← Nat.and_two_pow_sub_one_eq_mod]
  apply Nat.eq_of_testBit_eq
  intro j
  simp only [Nat.testBit_and, Nat.testBit_shiftLeft, Nat.testBit_shiftRight]
  by_cases h : i ≤ j <;> simp [h]

theorem rawChannel_toNat (color : BitVec 16) (k : Nat) :
    (rawChannel color k).toNat = color.toNat / 2 ^ (5 * k) % 32 := by
  rw [rawChannel, BitVec.extractLsb'_toNat, Nat.shiftRight_eq_div_pow]

/-- The mask 0x3E of 46_color_codec.md R451 is the field of five bits from bit 1, where the shift has put the raw
value; the constant is bit 0. -/
theorem expandChannel_toNat (raw : BitVec 5) : (expandChannel raw).toNat = 2 * raw.toNat + 1 := by
  have hraw : raw.toNat < 32 := raw.isLt
  have hshift : (raw.zeroExtend 32 <<< 1).toNat = 2 * raw.toNat := by
    rw [BitVec.toNat_shiftLeft, BitVec.toNat_setWidth, Nat.shiftLeft_eq]
    omega
  have hmask : 2 * raw.toNat &&& (2 ^ 5 - 1) <<< 1 = raw.toNat <<< 1 := by
    rw [and_fieldMask, Nat.shiftLeft_eq]
    omega
  calc (expandChannel raw).toNat
      = (2 * raw.toNat &&& (2 ^ 5 - 1) <<< 1) ||| 1 := by
        rw [expandChannel, BitVec.toNat_or, BitVec.toNat_and, hshift]
        rfl
    _ = raw.toNat <<< 1 + 1 := by rw [hmask, Nat.shiftLeft_add_eq_or_of_lt (by decide)]
    _ = 2 * raw.toNat + 1 := by rw [Nat.shiftLeft_eq, Nat.mul_comm, Nat.pow_one]

/-- The mask 0xF8 of 46_color_codec.md R452 is the field of five bits from bit 3, where the shift by 2 has put bits
5 to 1 of the value. -/
theorem contractChannel_toNat (c : Word) : (contractChannel c).toNat = c.toNat / 2 % 32 * 8 := by
  calc (contractChannel c).toNat
      = (c.toNat <<< 2 % 2 ^ 32 &&& (2 ^ 5 - 1) <<< 3) % 2 ^ 8 := by
        rw [contractChannel, BitVec.truncate_eq_setWidth, BitVec.toNat_setWidth, BitVec.toNat_and,
          BitVec.toNat_shiftLeft]
        rfl
    _ = c.toNat / 2 % 32 * 8 := by
        rw [and_fieldMask, Nat.shiftLeft_eq]
        omega

/-- Settles O50: the values of an expanded and a contracted channel by what the two masks keep, and the word of a
contracted color by its lanes. -/
theorem codecFormulas : Obligations.CodecFormulas := by
  unfold Obligations.CodecFormulas
  refine ⟨fun color k => ?_, contractChannel_toNat, fun _ => rfl, fun c => ⟨rfl, _, rfl, colorWord_toNat ..⟩⟩
  rw [expandChannel_toNat, rawChannel_toNat]

end Sys2Proof.Machine
end

section
/-! The lifecycle commands (48_commands.md R551, R552, R556): INIT, RESET and DEINIT are read off their effects field
by field; a DRAW over an empty edge table resolves no span. -/

namespace Sys2Proof.Machine

theorem encode_init : encode .init = 0x10000000#32 := by decide

theorem encode_reset : encode .reset = 0x20000000#32 := by decide

theorem encode_deinit : encode .deinit = 0x30000000#32 := by decide

@[simp] theorem hasOpenSpan_nil (p : Nat) : hasOpenSpan [] p = false := rfl

/-- Outside READY every command but INIT records NOT_READY and changes nothing else (10_state.md R52). -/
theorem exec_eq_faulted_notReady {i : Instr} {s : State} (hi : i ≠ .init) (hr : s.life ≠ .ready)
    (hf : s.fault = none) : exec i s = .next (faulted .notReady (encode i) s) := by
  rw [exec_notReady hi hr, raiseFault_of_none hf, faulted]

/-! ## A DRAW over an empty edge table -/

/-- The walk over an empty edge table opens no span and draws no free value (43_span_assembler.md R306). -/
theorem assembled_of_empty {s : State} (h : s.et = .known []) (y : Nat) : assembled y s = ⟨[], [], [], s.draws⟩ := by
  rw [assembled, h]
  rfl

theorem resolved_row_of_empty {s : State} (h : s.et = .known []) (y : Nat) :
    (resolved y s).row = List.replicate s.params.width .unwritten := by
  rw [resolved, assembled_of_empty h, resolve, sortSpans_nil, resolveFrom_nil]

/-- A DRAW over an empty edge table fills its slot with `Unwritten` (48_commands.md R552). -/
theorem readRow_drawScanline_of_empty {s : State} (h : s.et = .known []) (y : Nat) :
    readRow (drawScanline y s).params (drawScanline y s).mem (slotOf s.params y) =
      List.replicate s.params.width .unwritten := by
  rw [drawScanline_params, drawScanline_mem, readRow_writeRow_same, resolved_row_of_empty h]

/-! ## The three commands -/

/-- Settles O13: INIT is `initialise` in every state, and its empty cache reads as Unknown rows. -/
theorem initResult : Obligations.InitResult := by
  unfold Obligations.InitResult
  exact ⟨encode_init, fun s => ⟨initialise s, exec_init s, rfl, rfl, rfl, ⟨[], rfl, hasOpenSpan_nil⟩, rfl,
    readRow_of_cache_nil _ rfl, rfl, rfl, rfl, rfl, rfl, rfl⟩⟩

/-- Settles O14: RESET in READY is `dropGeometry`, which leaves READY and an empty edge table for the DRAW after it;
outside READY the frame of a command raises NOT_READY. -/
theorem resetResult : Obligations.ResetResult := by
  unfold Obligations.ResetResult
  refine ⟨encode_reset, fun s hr => ?performed, fun s hr hf => ?notReady⟩
  case performed =>
    have hdraw : ∀ y < s.params.screenHeight,
        exec (.draw y) (dropGeometry s) = .next (drawScanline y (dropGeometry s)) :=
      fun y hy => exec_effect (i := .draw y) hr (scanlineCheck_of_lt hy)
    exact ⟨dropGeometry s, exec_effect (i := .reset) hr rfl, hr, rfl, rfl, ⟨[], rfl, hasOpenSpan_nil⟩, rfl, rfl, rfl,
      rfl, rfl, rfl, fun y hy => ⟨_, hdraw y hy, readRow_drawScanline_of_empty (dropGeometry_et s) y⟩⟩
  case notReady =>
    rw [exec_eq_faulted_notReady (by simp) hr hf, encode_reset]

/-- Settles O15: DEINIT in READY is `release`, which leaves a LIFE that accepts INIT alone; outside READY the frame
of a command raises NOT_READY. -/
theorem deinitResult : Obligations.DeinitResult := by
  unfold Obligations.DeinitResult
  refine ⟨encode_deinit, fun s hr => ?performed, fun s hr hf => ?notReady⟩
  case performed =>
    have hafter : s.fault = none → ∀ i, i ≠ .init →
        exec i (release s) = .next (faulted .notReady (encode i) (release s)) :=
      fun hf i hi => exec_eq_faulted_notReady hi (by simp) hf
    exact ⟨release s, exec_effect (i := .deinit) hr rfl, rfl, rfl, rfl, rfl, rfl,
      readRow_of_cache_nil _ rfl, rfl, rfl, rfl, rfl, rfl, rfl, hafter,
      initialise (release s), exec_init _, initialise_life _⟩
  case notReady =>
    rw [exec_eq_faulted_notReady (by simp) hr hf, encode_deinit]

end Sys2Proof.Machine
end

section
/-! A fault is precise (60_exceptions.md R603): the word it records is the one delivered, as a command has one word;
and the checks of an operand, each with the fault it raises (R601). -/

namespace Sys2Proof

open Sys2Proof.Laws.EncodingFields (opcodeOf operandOf)

/-! ## A command has one word -/

/-- A word that decodes to a command passes the decoder's checks of its fields (30_encoding.md R154, R155). -/
theorem fields_admitted_of_decode {w : Word} {i : Instr} (h : decode w = .command i) :
    (1 ≤ opcField w ∧ opcField w ≤ 6) ∧ rsvField w = 0 ∧ (opcField w ≤ 3 → immField w = 0) := by
  have hopc : ¬ (opcField w < 1 ∨ 6 < opcField w) := by
    intro hbad
    rw [decode_illegal hbad] at h
    cases h
  have hrange : 1 ≤ opcField w ∧ opcField w ≤ 6 := by omega
  have hres : ¬ (rsvField w ≠ 0 ∨ (opcField w ≤ 3 ∧ immField w ≠ 0)) := by
    intro hbad
    rw [decode_reservedField hrange.1 hrange.2 hbad] at h
    cases h
  exact ⟨hrange, by omega, by omega⟩

/-- Every opcode of a command, with an operand that is 0 where the command has none, belongs to some command. -/
theorem exists_command_of_fields {o n : Nat} (h1 : 1 ≤ o) (h6 : o ≤ 6) (hn : o ≤ 3 → n = 0) :
    ∃ i, o = opcodeOf i ∧ n = operandOf i := by
  have ho : o = 1 ∨ o = 2 ∨ o = 3 ∨ o = 4 ∨ o = 5 ∨ o = 6 := by omega
  rcases ho with rfl | rfl | rfl | rfl | rfl | rfl
  · exact ⟨.init, rfl, hn (by decide)⟩
  · exact ⟨.reset, rfl, hn (by decide)⟩
  · exact ⟨.deinit, rfl, hn (by decide)⟩
  · exact ⟨.submit n, rfl, rfl⟩
  · exact ⟨.draw n, rfl, rfl⟩
  · exact ⟨.read n, rfl, rfl⟩

/-- The converse of `decode_of_fields`: a decoded word has the fields of its command. -/
theorem fields_of_decode {w : Word} {i : Instr} (h : decode w = .command i) :
    opcField w = opcodeOf i ∧ rsvField w = 0 ∧ immField w = operandOf i := by
  obtain ⟨⟨h1, h6⟩, hr, hn⟩ := fields_admitted_of_decode h
  obtain ⟨j, ho, hi⟩ := exists_command_of_fields h1 h6 hn
  have hj : decode w = .command j := decode_of_fields ho hr hi
  obtain rfl : i = j := by
    rw [h] at hj
    cases hj
    rfl
  exact ⟨ho, hr, hi⟩

/-- The fields of a command's word, for every command. -/
theorem encode_fields (i : Instr) : Laws.EncodingFields.Statement i := by
  cases i with
  | init => exact Laws.EncodingFields.init
  | reset => exact Laws.EncodingFields.reset
  | deinit => exact Laws.EncodingFields.deinit
  | submit n => exact Laws.EncodingFields.submit n
  | draw y => exact Laws.EncodingFields.draw y
  | read y => exact Laws.EncodingFields.read y

/-- A word that decodes to a command is that command's word: the three fields agree, the operand being an IMM and
so not cut. -/
theorem encode_of_decode {w : Word} {i : Instr} (h : decode w = .command i) : encode i = w := by
  obtain ⟨ho, hr, hi⟩ := fields_of_decode h
  obtain ⟨ho', hr', hi'⟩ := encode_fields i
  have himm : immField w < 65536 := (w.extractLsb' 0 16).isLt
  refine word_eq_of_fields (ho'.trans ho.symm) (hr'.trans hr.symm) (hi'.trans ?_)
  rw [← hi, Nat.mod_eq_of_lt himm]

end Sys2Proof

namespace Sys2Proof.Machine

/-! ## A fault has no other effect -/

/-- A command that leaves a fault recorded, with none before, raised it and did nothing else. -/
theorem exec_eq_faulted {i : Instr} {s t : State} {f : FaultRecord} (hf : s.fault = none)
    (h : exec i s = .next t) (ht : t.fault = some f) :
    f.word = encode i ∧ t = faulted f.code (encode i) s := by
  rcases exec_cases h with ⟨-, -, rfl⟩ | ⟨code, -, -, rfl⟩
  · obtain ⟨-, -, -, -, hfault⟩ := effectOf_frame i s
    rw [hfault, hf] at ht
    cases ht
  · rw [raiseFault_of_none hf] at ht ⊢
    cases ht
    exact ⟨rfl, rfl⟩

/-- A delivered word that leaves a fault recorded, with none before, is the one recorded, and only leaves the port. -/
theorem step_eq_faulted {s t : State} {w : Word} {rest : List HostMove} {f : FaultRecord}
    (hp : s.port = .command w :: rest) (hf : s.fault = none) (h : step s = .next t) (ht : t.fault = some f) :
    f.word = w ∧ t = faulted f.code w { s with port := rest } := by
  cases hd : decode w with
  | illegal =>
    rw [step_illegal hp hf hd] at h
    cases h
    cases ht
    exact ⟨rfl, rfl⟩
  | reservedField =>
    rw [step_reservedField hp hf hd] at h
    cases h
    cases ht
    exact ⟨rfl, rfl⟩
  | command i =>
    rw [step_command hp, performWord_command (by exact hf) hd] at h
    rw [← encode_of_decode hd]
    exact exec_eq_faulted hf h ht

/-- Settles O10: a fault of a step is that of a word that is no command or of a command's meaning
(`step_eq_faulted`, `exec_eq_faulted`), and a command decoded has the delivered word; the code numbers as the model
gives them. -/
theorem faultsArePrecise : Obligations.FaultsArePrecise := by
  unfold Obligations.FaultsArePrecise
  exact ⟨fun _ _ _ _ _ => step_eq_faulted, fun _ _ _ _ => exec_eq_faulted, rfl, rfl, rfl, rfl, rfl, rfl, rfl⟩

/-! ## The operand checks -/

theorem polygonCheck_of_shape {p : Params} {r : Polygon} (h : r.n < 3 ∨ 4 < r.n) :
    polygonCheck p r = some .polygonShape := by
  have hshape : ¬ shapeAdmitted r = true := by
    rw [shapeAdmitted_iff]
    omega
  exact if_neg hshape

/-- An index outside VB is found once the vertex count has passed (60_exceptions.md R601). -/
theorem polygonCheck_of_index {p : Params} {r : Polygon} (h3 : 3 ≤ r.n) (h4 : r.n ≤ 4)
    (h : ∃ i ∈ r.v, p.maxVertices ≤ i) : polygonCheck p r = some .vertexIndex := by
  obtain ⟨i, hi, hle⟩ := h
  have hindices : ¬ indicesAdmitted p r = true := fun hall =>
    Nat.not_lt.2 hle (indicesAdmitted_iff.1 hall i hi)
  rw [polygonCheck, if_pos (shapeAdmitted_iff.2 ⟨h3, h4⟩), if_neg hindices]

/-- Where N fits, the first polygon not admitted decides SUBMIT's fault. -/
theorem submitCheck_of_first {s : State} {n q : Nat} {code : FaultCode} (hn : n ≤ s.params.maxPolygons)
    (hq : q < n) (before : ∀ q' < q, polygonAdmitted s q')
    (here : polygonCheck s.params (readPolygon s.mem s.draws q) = some code) : submitCheck n s = some code := by
  rw [submitCheck_of_le hn]
  exact polygonsCheck_of_first hq (fun q' h => polygonAdmitted_iff.1 (before q' h)) here

section
variable {i : Instr} {s : State}

/-- In READY a check that fails records its fault and changes nothing else. -/
theorem exec_eq_faulted_of_check {code : FaultCode} (hi : i ≠ .init) (hr : s.life = .ready) (hf : s.fault = none)
    (hc : checkOf i s = some code) : exec i s = .next (faulted code (encode i) s) := by
  rw [exec_fault hi hr hc, raiseFault_of_none hf, faulted]

/-- In READY a command whose checks pass raises no fault. -/
theorem fault_none_of_check {t : State} (hr : s.life = .ready) (hf : s.fault = none) (hc : checkOf i s = none)
    (h : exec i s = .next t) : t.fault = none := by
  obtain ⟨-, -, -, -, hfault⟩ := effectOf_frame i s
  rw [exec_effect hr hc] at h
  cases h
  exact hfault.trans hf

end

/-- Settles O18: each failing operand gives its code by the check of its command, the first polygon not admitted
deciding for SUBMIT (`submitCheck_of_first`), and the frame of a command records that code alone; where the checks
pass the command's effect leaves FAULT as it was. -/
theorem operandChecksFault : Obligations.OperandChecksFault := by
  unfold Obligations.OperandChecksFault
  intro s hr hf
  have hsubmit {n : Nat} {code : FaultCode} (hc : submitCheck n s = some code) :
      exec (.submit n) s = .next (faulted code (encode (.submit n)) s) :=
    exec_eq_faulted_of_check (by simp) hr hf hc
  refine ⟨fun n hn => ?count, fun n q hn hq before hshape => ?shape, fun n q hn hq before h3 h4 hindex => ?index,
    fun y hy => ?scanline, fun n t hn ha h => ?submitPasses, fun y t hy h => ?scanlinePasses⟩
  case count => exact hsubmit (submitCheck_of_gt hn)
  case shape => exact hsubmit (submitCheck_of_first hn hq before (polygonCheck_of_shape hshape))
  case index => exact hsubmit (submitCheck_of_first hn hq before (polygonCheck_of_index h3 h4 hindex))
  case scanline =>
    have hc : scanlineCheck s.params y = some .scanlineRange := scanlineCheck_of_le hy
    exact ⟨exec_eq_faulted_of_check (by simp) hr hf hc, exec_eq_faulted_of_check (by simp) hr hf hc⟩
  case submitPasses =>
    rw [exec_submit_of_admitted hr hn ha] at h
    cases h
    exact hf
  case scanlinePasses =>
    have hc : scanlineCheck s.params y = none := scanlineCheck_of_lt hy
    rcases h with h | h
    · exact fault_none_of_check (i := .draw y) hr hf hc h
    · exact fault_none_of_check (i := .read y) hr hf hc h

end Sys2Proof.Machine
end

section
/-! The round trip of the encoding (30_encoding.md sections 1 to 3), and the step on a delivered command word
(48_commands.md R550). -/

namespace Sys2Proof

open Sys2Proof.Laws.EncodingFields (opcodeOf operandOf)

theorem wellFormed_iff {i : Instr} : i.wellFormed = true ↔ operandOf i < 65536 := by
  cases i <;> simp [Instr.wellFormed, operandOf, operandFits]

/-- The operand of a well-formed command fits IMM, so the encoding cuts nothing off and the fields are the command's. -/
theorem decode_encode {i : Instr} (h : i.wellFormed = true) : decode (encode i) = .command i := by
  obtain ⟨hopc, hrsv, himm⟩ := encode_fields i
  rw [Nat.mod_eq_of_lt (wellFormed_iff.1 h)] at himm
  exact decode_of_fields hopc hrsv himm

/-- An operand decoded is an IMM, so it fits IMM. -/
theorem wellFormed_of_decode {w : Word} {i : Instr} (h : decode w = .command i) : i.wellFormed = true := by
  obtain ⟨-, -, himm⟩ := fields_of_decode h
  rw [wellFormed_iff, ← himm]
  exact (w.extractLsb' 0 16).isLt

/-- Settles O3: the fields of the encoding are the command's (`encode_fields`), and fields decide the decoding
(`decode_of_fields`). -/
theorem decodeOfEncode : Obligations.DecodeOfEncode := by
  unfold Obligations.DecodeOfEncode
  exact fun _ => decode_encode

/-- Settles O4: a decoded operand is an IMM, and a word is determined by its fields (`encode_of_decode`). -/
theorem encodeOfDecode : Obligations.EncodeOfDecode := by
  unfold Obligations.EncodeOfDecode
  exact fun _ _ h => ⟨wellFormed_of_decode h, encode_of_decode h⟩

/-- Settles O1: nine words, decoded by evaluation. -/
theorem writtenWordsDecode : Obligations.WrittenWordsDecode := by
  unfold Obligations.WrittenWordsDecode
  decide

/-- A 32-bit word read as a table row of 32 bits is itself. -/
theorem tableWord_toNat (w : Word) : tableWord 32 w.toNat = some w := by
  have hw : w.toNat % 2 ^ 32 = w.toNat := Nat.mod_eq_of_lt w.isLt
  rw [tableWord, hw, if_pos w.isLt, BitVec.ofNat_toNat, BitVec.setWidth_eq]

theorem decodeTableWord_encode {i : Instr} (h : i.wellFormed = true) :
    decodeTableWord 32 (encode i).toNat = some i := by
  rw [decodeTableWord, tableWord_toNat]
  exact congrArg Decoded.instr? (decode_encode h)

end Sys2Proof

namespace Sys2Proof.Machine

theorem tableMove_toNat (w : Word) : tableMove 32 w.toNat = .command w := by
  rw [tableMove, Nat.mod_eq_of_lt w.isLt, BitVec.ofNat_toNat, BitVec.setWidth_eq]

/-- A block with no fault performs the command the first word on its port decodes to (48_commands.md R550). -/
theorem step_eq_exec {s : State} {w : Word} {rest : List HostMove} {i : Instr} (hp : s.port = .command w :: rest)
    (hf : s.fault = none) (hd : decode w = .command i) : step s = exec i { s with port := rest } := by
  rw [step_command hp, performWord_command (by exact hf) hd]

/-- Settles O6: the step on a command word without a fault recorded is `exec` of what it decodes to. -/
theorem stepRunsDecodedCommand : Obligations.StepRunsDecodedCommand := by
  unfold Obligations.StepRunsDecodedCommand
  exact fun _ _ _ _ => step_eq_exec

/-- Settles O7: the word placed first on the port is the command's own, which decodes to it. -/
theorem placedWordIsPerformed : Obligations.PlacedWordIsPerformed := by
  unfold Obligations.PlacedWordIsPerformed
  intro s i hi hf
  refine ⟨?_, decodeTableWord_encode hi⟩
  rw [withFetchWord_eq, tableMove_toNat]
  exact step_eq_exec rfl hf (decode_encode hi)

end Sys2Proof.Machine
end

section
/-! What every step keeps: the parameters, the canonical form of the memory (20_memory.md section 1) and the block
invariant (10_state.md sections 3, 4 and 8). -/

namespace Sys2Proof.Machine

/-! ## The induction over a step -/

/-- A property that does not speak of FAULT or the port is kept by every step when each move of the host and each
command performed keeps it. -/
theorem step_keeps {P : State → Prop} (unseen : ∀ s f hs, P s → P { s with fault := f, port := hs })
    (power : ∀ s, P s → P (powerOn s))
    (vertex : ∀ s i v, i < s.params.maxVertices → P s → P (writeVertex i v s))
    (polygon : ∀ s p r, p < s.params.maxPolygons → P s → P (writePolygon p r s))
    (effect : ∀ s i, i = .init ∨ s.life = .ready → checkOf i s = none → P s → P (effectOf i s))
    {s t : State} (h : step s = .next t) (hs : P s) : P t := by
  have raise : ∀ code w u, P u → P (raiseFault code w u) := fun code w u hu => by
    rcases raiseFault_cases code w u with ⟨-, he⟩ | ⟨f, -, he⟩ <;> rw [he]
    · exact unseen u _ u.port hu
    · exact hu
  have taken : ∀ rest, P { s with port := rest } := fun rest => unseen s s.fault rest hs
  rcases step_cases h with ⟨-, rfl⟩ | ⟨rest, -, rfl⟩ | ⟨i, v, rest, -, hi, rfl⟩ | ⟨p, r, rest, -, hp, rfl⟩ |
    ⟨w, rest, -, hw⟩
  · exact hs
  · exact power _ (taken rest)
  · exact vertex _ i v hi (taken rest)
  · exact polygon _ p r hp (taken rest)
  · rcases hw with ⟨-, rfl⟩ | ⟨-, -, code, rfl⟩ | ⟨-, i, -, hx⟩
    · exact taken rest
    · exact raise code w _ (taken rest)
    · rcases exec_cases hx with ⟨hacc, hc, rfl⟩ | ⟨code, -, -, rfl⟩
      · exact effect _ i hacc hc (taken rest)
      · exact raise code _ _ (taken rest)

/-! ## The parameters -/

theorem effectOf_params (i : Instr) (s : State) : (effectOf i s).params = s.params := (effectOf_frame i s).1

theorem step_params {s t : State} (h : step s = .next t) : t.params = s.params :=
  step_keeps (P := fun u => u.params = s.params) (fun _ _ _ hu => hu) (fun _ hu => hu) (fun _ _ _ _ hu => hu)
    (fun _ _ _ _ hu => hu) (fun u i _ _ hu => (effectOf_params i u).trans hu) h rfl

/-- What 00_scope.md R6 gives the sizes of the block that the invariant needs. -/
theorem Params.sizes_of_valid {p : Params} (h : p.valid = true) : 0 < p.width ∧ 0 < p.cacheLines := by
  simp only [Params.valid, Bool.and_eq_true, decide_eq_true_eq] at h
  omega

/-! ## The memory -/

/-- Every command performed keeps the canonical form: only INIT, DEINIT and DRAW touch the memory, and a DRAW writes
a row of WIDTH cells to a slot of the cache. -/
theorem effectOf_keeps_wf {s : State} (hp : s.params.valid = true) (h : Memory.wf s.params s.mem = true)
    (i : Instr) : Memory.wf (effectOf i s).params (effectOf i s).mem = true := by
  cases i with
  | init | deinit => exact Memory.wf_clear h
  | reset | submit n | read y => exact h
  | draw y => exact Memory.wf_writeRow h (slotOf_lt (Params.sizes_of_valid hp).2 y) (length_resolveFrom ..)

/-- Settles O58, by the induction over a step: power-on empties the memory, the geometry stage's writes keep the form
within their bounds, and so does every command performed. -/
theorem memoryFormIsKept : Obligations.MemoryFormIsKept := by
  unfold Obligations.MemoryFormIsKept
  intro s t hp hm h
  refine (step_keeps (P := fun u => u.params.valid = true ∧ Memory.wf u.params u.mem = true) (fun _ _ _ hu => hu)
    (fun u ⟨hv, _⟩ => ⟨hv, Memory.wf_empty _⟩) (fun u i v hi ⟨hv, hu⟩ => ⟨hv, Memory.wf_setVertex hu hi v⟩)
    (fun u p r hp ⟨hv, hu⟩ => ⟨hv, Memory.wf_setPolygon hu hp r⟩) (fun u i _ _ ⟨hv, hu⟩ => ?_) h ⟨hp, hm⟩).2
  exact ⟨(effectOf_params i u).symm ▸ hv, effectOf_keeps_wf hv hu i⟩

/-- The listed rows after a row is written: those before, or that row. -/
theorem mem_writeRow_cache {p : Params} {m : Memory} {k : Nat} {r : Row} {e : Nat × Row}
    (h : e ∈ (writeRow p m k r).cache) : e = (k, r) ∨ e ∈ m.cache := by
  unfold writeRow at h
  split at h
  · exact .inr (Space.mem_erase h)
  · exact Space.mem_set h

/-- Every cell of every listed row stays written: a DRAW writes every column (44_depth_resolver.md R358). -/
theorem effectOf_keeps_written {s : State} (h : ∀ e ∈ s.mem.cache, ∀ c ∈ e.2, c.isWritten = true) (i : Instr) :
    ∀ e ∈ (effectOf i s).mem.cache, ∀ c ∈ e.2, c.isWritten = true := by
  cases i with
  | init | deinit => simp [effectOf]
  | reset | submit n | read y => exact h
  | draw y =>
    intro e he
    rcases mem_writeRow_cache he with rfl | he
    · exact resolveFrom_written _ _ _ _ _
    · exact h e he

/-! ## The edge table and the span table -/

theorem edgeTableOk_nil (p : Params) : EdgeTableOk p [] :=
  ⟨List.Pairwise.nil, by simp, by simp, by simp⟩

/-- What a DRAW leaves of an edge table is an edge table (42_edge_table.md R256). -/
theorem EdgeTableOk.sublist {p : Params} {l l' : List Edge} (h : EdgeTableOk p l) (hl : l'.Sublist l) :
    EdgeTableOk p l' :=
  ⟨h.sorted.sublist hl, fun e he => h.oriented e (hl.subset he), fun e he => h.owned e (hl.subset he),
    hl.length_le.trans h.bounded⟩

/-- The edges SUBMIT builds of admitted polygons are an edge table (42_edge_table.md R252). -/
theorem edgeTableOk_sortEdges {s : State} {n : Nat} (h : submitCheck n s = none) (o : TieOrder) :
    EdgeTableOk s.params (sortEdges o (buildEdges s.mem s.draws n)) := by
  obtain ⟨hn, hq⟩ := submitCheck_none_iff.1 h
  have hfour : ∀ q < n, (readPolygon s.mem s.draws q).n ≤ 4 := fun q h => by
    obtain ⟨-, hle, -⟩ := polygonCheck_none_iff.1 (hq q h)
    exact hle
  refine ⟨sortEdges_sorted o _, fun e he => ?oriented, fun e he => ?owned, ?bounded⟩
  case oriented =>
    obtain ⟨p, -, a, b, rfl⟩ := mem_buildEdges (mem_sortEdges.1 he)
    exact makeEdge_oriented p a b
  case owned =>
    obtain ⟨p, hp, a, b, rfl⟩ := mem_buildEdges (mem_sortEdges.1 he)
    exact (makeEdge_poly p a b).symm ▸ hp.trans_le hn
  case bounded =>
    rw [length_sortEdges, Config.maxPolyVerts]
    exact (length_buildEdges_le hfour).trans (Nat.mul_le_mul_right 4 hn)

theorem wellOrdered_of_mem_assemble {L : Interpolation} {y : Nat} {et : List Edge} {k : Nat} {sp : Span}
    (h : sp ∈ (assemble L y et k).st) : sp.wellOrdered := by
  obtain ⟨hc, ep, a, rfl⟩ := mem_assemble h
  exact ⟨hc, closedWith_ordered ep a⟩

/-- Settles O32: a closed span was closed by `closedWith`, which puts the left endpoint first. -/
theorem assembledSpansAreWellOrdered : Obligations.AssembledSpansAreWellOrdered := by
  unfold Obligations.AssembledSpansAreWellOrdered
  exact fun _ _ _ _ _ => wellOrdered_of_mem_assemble

/-- The column sweep sorts and retires the assembled spans, and changes none. -/
theorem wellOrdered_of_mem_resolved {y : Nat} {s : State} {sp : Span} (h : sp ∈ (resolved y s).st) :
    sp.wellOrdered :=
  wellOrdered_of_mem_assemble (mem_sortSpans.1 ((resolveFrom_sublist _ _ _ _ _).subset h))

/-! ## The tables and the lifecycle -/

/-- In READY the tables follow the lifecycle when they hold good values. -/
theorem tablesFollowLife_of_ready {s : State} {l : List Edge} {spans : List Span} {b : Space Nat}
    (hr : s.life = .ready) (het : s.et = .known l) (hl : EdgeTableOk s.params l) (hst : s.st = .known spans)
    (hspans : ∀ sp ∈ spans, sp.wellOrdered) (hbk : s.bk = .known b) (hb : Space.rising b = true) :
    TablesFollowLife s :=
  ⟨fun _ => ⟨l, het, hl⟩, fun _ => ⟨spans, hst, hspans⟩, fun _ => ⟨b, hbk, hb⟩, fun hne => absurd hr hne⟩

/-- Outside READY the tables follow the lifecycle when everything is Unknown. -/
theorem tablesFollowLife_of_released {s : State} (hr : s.life ≠ .ready)
    (h : s.et = .unknown ∧ s.st = .unknown ∧ s.bk = .unknown ∧ s.mem.cache = []) : TablesFollowLife s :=
  ⟨fun hr' => absurd hr' hr, fun hr' => absurd hr' hr, fun hr' => absurd hr' hr, fun _ => h⟩

/-- Every command performed keeps the tables following the lifecycle (10_state.md R71). -/
theorem effectOf_keeps_tables {s : State} (h : TablesFollowLife s) {i : Instr} (hacc : i = .init ∨ s.life = .ready)
    (hc : checkOf i s = none) : TablesFollowLife (effectOf i s) := by
  have hready : i ≠ .init → s.life = .ready := hacc.resolve_left
  cases i with
  | init => exact tablesFollowLife_of_ready rfl rfl (edgeTableOk_nil _) rfl (by simp) rfl rfl
  | reset => exact tablesFollowLife_of_ready (hready (by simp)) rfl (edgeTableOk_nil _) rfl (by simp) rfl rfl
  | deinit => exact tablesFollowLife_of_released (by simp [effectOf]) ⟨rfl, rfl, rfl, rfl⟩
  | submit n =>
    have hr := hready (by simp)
    obtain ⟨spans, hst, hspans⟩ := h.readySpans hr
    obtain ⟨b, hbk, hb⟩ := h.readyBucket hr
    exact tablesFollowLife_of_ready hr rfl (edgeTableOk_sortEdges hc _) hst hspans hbk hb
  | draw y =>
    have hr := hready (by simp)
    obtain ⟨l, het, hl⟩ := h.readyEdges hr
    exact tablesFollowLife_of_ready hr (drawScanline_et_of_known het y) (hl.sublist List.filter_sublist) rfl
      (fun _ => wellOrdered_of_mem_resolved) rfl (rising_assemble _ _ _ _)
  | read y => exact ⟨h.readyEdges, h.readySpans, h.readyBucket, h.released⟩

/-! ## The block invariant -/

theorem effectOf_keeps_work {s : State} (h : s.work = WorkRegs.unknown) (i : Instr) :
    (effectOf i s).work = WorkRegs.unknown := by
  cases i <;> simp [effectOf, h]

/-- A row delivered is one read, which has WIDTH cells (30_encoding.md R162). -/
theorem effectOf_keeps_delivered {s : State} (hm : Memory.wf s.params s.mem = true)
    (h : ∀ r ∈ s.rowOut, r.length = s.params.width) (i : Instr) :
    ∀ r ∈ (effectOf i s).rowOut, r.length = (effectOf i s).params.width := by
  cases i with
  | init | reset | deinit | submit n | draw y => exact h
  | read y =>
    intro r hr
    rcases List.mem_append.1 hr with hr | hr
    · exact h r hr
    · exact List.mem_singleton.1 hr ▸ length_readRow hm _

/-- The invariant does not speak of FAULT or the port. -/
theorem BlockInvariant.with_fault_port {s : State} (h : BlockInvariant s) (f : Option FaultRecord)
    (hs : List HostMove) : BlockInvariant { s with fault := f, port := hs } :=
  ⟨h.params, h.memory, h.written, h.work,
    ⟨h.tables.readyEdges, h.tables.readySpans, h.tables.readyBucket, h.tables.released⟩, h.delivered⟩

theorem BlockInvariant.of_powerOn {s : State} (h : BlockInvariant s) : BlockInvariant (powerOn s) :=
  ⟨h.params, Memory.wf_empty _, by simp, rfl, tablesFollowLife_of_released (by simp) ⟨rfl, rfl, rfl, rfl⟩,
    h.delivered⟩

/-- The geometry stage's writes leave everything but VB and PL alone. -/
theorem BlockInvariant.of_withGeometry {s : State} (h : BlockInvariant s) {vb : Space Vertex} {pl : Space Polygon}
    (hm : Memory.wf s.params ⟨vb, pl, s.mem.cache⟩ = true) : BlockInvariant (withGeometry vb pl s) :=
  ⟨h.params, hm, h.written, h.work,
    ⟨h.tables.readyEdges, h.tables.readySpans, h.tables.readyBucket, h.tables.released⟩, h.delivered⟩

theorem BlockInvariant.of_effectOf {s : State} (h : BlockInvariant s) {i : Instr} (hacc : i = .init ∨ s.life = .ready)
    (hc : checkOf i s = none) : BlockInvariant (effectOf i s) :=
  ⟨(effectOf_params i s).symm ▸ h.params, effectOf_keeps_wf h.params h.memory i, effectOf_keeps_written h.written i,
    effectOf_keeps_work h.work i, effectOf_keeps_tables h.tables hacc hc,
    effectOf_keeps_delivered h.memory h.delivered i⟩

/-- Settles O60, by the induction over a step: the invariant does not speak of FAULT or the port, and each move of the
host and each command performed keeps it. -/
theorem stepKeepsTheInvariant : Obligations.StepKeepsTheInvariant := by
  unfold Obligations.StepKeepsTheInvariant
  intro s t hs h
  exact step_keeps (P := BlockInvariant) (fun _ f hs h => h.with_fault_port f hs) (fun _ h => h.of_powerOn)
    (fun _ _ v hi h => h.of_withGeometry (Memory.wf_setVertex h.memory hi v))
    (fun _ _ r hp h => h.of_withGeometry (Memory.wf_setPolygon h.memory hp r))
    (fun _ _ hacc hc h => h.of_effectOf hacc hc) h hs

/-- Settles O59: after reset nothing is known and nothing was delivered. -/
theorem resetMeetsTheInvariant : Obligations.ResetMeetsTheInvariant := by
  unfold Obligations.ResetMeetsTheInvariant
  exact ⟨by decide, Memory.wf_reset, by simp [State.reset], rfl,
    tablesFollowLife_of_released (by simp [State.reset]) ⟨rfl, rfl, rfl, rfl⟩, by simp [State.reset]⟩

end Sys2Proof.Machine
end

section
/-! Rules of the whole machine: a recorded fault stays (60_exceptions.md R604), power-on (70_reset_and_hazards.md
R700), what the host writes (20_memory.md section 1), and what no command reads or delivers (10_state.md section 7). -/

namespace Sys2Proof.Machine

/-! ## A recorded fault -/

theorem exec_keeps_fault {i : Instr} {s t : State} {f : FaultRecord} (hf : s.fault = some f)
    (h : exec i s = .next t) : t.fault = some f := by
  rcases exec_cases h with ⟨-, -, rfl⟩ | ⟨code, -, -, rfl⟩
  · obtain ⟨-, -, -, -, hfault⟩ := effectOf_frame i s
    exact hfault.trans hf
  · exact raiseFault_keeps_fault hf code _

theorem step_keeps_fault {s t : State} {f : FaultRecord} (hf : s.fault = some f) (h : step s = .next t)
    (hp : ∀ rest, s.port ≠ .powerOn :: rest) : t.fault = some f := by
  rcases step_cases h with ⟨-, rfl⟩ | ⟨rest, hport, rfl⟩ | ⟨i, v, rest, -, -, rfl⟩ | ⟨p, r, rest, -, -, rfl⟩ |
    ⟨w, rest, -, hw⟩
  · exact hf
  · exact absurd hport (hp rest)
  · exact hf
  · exact hf
  · rcases hw with ⟨-, rfl⟩ | ⟨hnone, -⟩ | ⟨hnone, -⟩
    · exact hf
    · exact absurd (hf.symm.trans hnone) (by simp)
    · exact absurd (hf.symm.trans hnone) (by simp)

theorem step_powerOn {s : State} {rest : List HostMove} (hp : s.port = .powerOn :: rest) :
    step s = .next (powerOn { s with port := rest }) := by
  simp [step, advance, hp, performMove]

/-- Settles O9: a faulted block drops the words delivered, the inversions of a command and of a step show the record
kept, and power-on clears it. -/
theorem faultedBlockStaysFaulted : Obligations.FaultedBlockStaysFaulted := by
  unfold Obligations.FaultedBlockStaysFaulted
  intro s f hf
  refine ⟨fun w rest hp => ?_, fun i t => exec_keeps_fault hf, fun t => step_keeps_fault hf, fun t rest hp h => ?_⟩
  · rw [step_command hp, performWord_faulted (by simp [hf])]
  · rw [step_powerOn hp] at h
    cases h
    rfl

/-! ## Power-on -/

theorem poweredOn_powerOn (s : State) : PoweredOn (powerOn s) :=
  ⟨rfl, rfl, rfl, rfl, rfl, rfl, readRow_of_cache_nil _ rfl⟩

/-- Settles O11: the state after power-on field by field, which LIFE lets accept INIT alone. -/
theorem powerOnState : Obligations.PowerOnState := by
  unfold Obligations.PowerOnState
  refine ⟨⟨rfl, rfl, rfl, rfl, rfl, rfl, readRow_of_cache_nil _ rfl⟩,
    fun s rest hp => ⟨_, step_powerOn hp, poweredOn_powerOn _, rfl, rfl⟩, fun s hp => ?waits,
    fun s i hs hi => ?notReady, fun s hs => ⟨_, exec_init s, hs.fault, rfl⟩⟩
  case waits => simp [step, advance, hp]
  case notReady => exact exec_eq_faulted_notReady hi (by simp [hs.life]) hs.fault

/-! ## What the geometry stage writes -/

theorem readVertex_set_same (m : Memory) (k i : Nat) (v : Vertex) :
    readVertex { m with vb := Space.set m.vb i v } k i = v := by
  simp [readVertex]

theorem readVertex_set_other (m : Memory) {i j : Nat} (h : j ≠ i) (k : Nat) (v : Vertex) :
    readVertex { m with vb := Space.set m.vb i v } k j = readVertex m k j := by
  simp [readVertex, Space.get_set_other _ h]

theorem readPolygon_set_same (m : Memory) (k p : Nat) (r : Polygon) :
    readPolygon { m with pl := Space.set m.pl p r } k p = r := by
  simp [readPolygon]

theorem readPolygon_set_other (m : Memory) {p j : Nat} (h : j ≠ p) (k : Nat) (r : Polygon) :
    readPolygon { m with pl := Space.set m.pl p r } k j = readPolygon m k j := by
  simp [readPolygon, Space.get_set_other _ h]

section
variable {s : State} {rest : List HostMove}

theorem step_writeVertex {i : Nat} {v : Vertex} (hp : s.port = .writeVertex i v :: rest)
    (hi : i < s.params.maxVertices) : step s = .next (writeVertex i v { s with port := rest }) := by
  simp [step, advance, hp, performMove, hi]

theorem step_writeVertex_outside {i : Nat} {v : Vertex} (hp : s.port = .writeVertex i v :: rest)
    (hi : s.params.maxVertices ≤ i) : step s = .fault (.noSuchVertexRecord i) := by
  simp [step, advance, hp, performMove, Nat.not_lt.2 hi]

theorem step_writePolygon {p : Nat} {r : Polygon} (hp : s.port = .writePolygon p r :: rest)
    (hi : p < s.params.maxPolygons) : step s = .next (writePolygon p r { s with port := rest }) := by
  simp [step, advance, hp, performMove, hi]

theorem step_writePolygon_outside {p : Nat} {r : Polygon} (hp : s.port = .writePolygon p r :: rest)
    (hi : s.params.maxPolygons ≤ p) : step s = .fault (.noSuchPolygonRecord p) := by
  simp [step, advance, hp, performMove, Nat.not_lt.2 hi]

end

/-- Settles O12: a write inside the space is one write of it, read back by the laws of a space; one outside stops the
model. -/
theorem geometryWritesLand : Obligations.GeometryWritesLand := by
  unfold Obligations.GeometryWritesLand
  refine ⟨fun s i v rest hp => ⟨fun hi => ?vertex, step_writeVertex_outside hp⟩,
    fun s p r rest hp => ⟨fun hi => ?polygon, step_writePolygon_outside hp⟩⟩
  case vertex =>
    exact ⟨_, step_writeVertex hp hi, fun k => readVertex_set_same s.mem k i v,
      fun k j hj => readVertex_set_other s.mem hj k v, rfl⟩
  case polygon =>
    exact ⟨_, step_writePolygon hp hi, fun k => readPolygon_set_same s.mem k p r,
      fun k j hj => readPolygon_set_other s.mem hj k r, rfl⟩

theorem exec_geometry {i : Instr} {s t : State} (h : exec i s = .next t) :
    t.mem.vb = s.mem.vb ∧ t.mem.pl = s.mem.pl := by
  rcases exec_cases h with ⟨-, -, rfl⟩ | ⟨code, -, -, rfl⟩
  · obtain ⟨-, -, hvb, hpl, -⟩ := effectOf_frame i s
    exact ⟨hvb, hpl⟩
  · simp

/-- A step that changes VB or PL is a host write of its space or a power-on. -/
theorem step_geometry_cases {s t : State} (h : step s = .next t) :
    (∃ rest, s.port = .powerOn :: rest) ∨
    ((t.mem.vb = s.mem.vb ∨ ∃ rest i v, s.port = .writeVertex i v :: rest) ∧
     (t.mem.pl = s.mem.pl ∨ ∃ rest p r, s.port = .writePolygon p r :: rest)) := by
  rcases step_cases h with ⟨-, rfl⟩ | ⟨rest, hp, rfl⟩ | ⟨i, v, rest, hp, -, rfl⟩ | ⟨p, r, rest, hp, -, rfl⟩ |
    ⟨w, rest, -, hw⟩
  · exact .inr ⟨.inl rfl, .inl rfl⟩
  · exact .inl ⟨rest, hp⟩
  · exact .inr ⟨.inr ⟨rest, i, v, hp⟩, .inl rfl⟩
  · exact .inr ⟨.inl rfl, .inr ⟨rest, p, r, hp⟩⟩
  · obtain ⟨hvb, hpl⟩ : t.mem.vb = s.mem.vb ∧ t.mem.pl = s.mem.pl := by
      rcases hw with ⟨-, rfl⟩ | ⟨-, -, code, rfl⟩ | ⟨-, i, -, hx⟩
      · exact ⟨rfl, rfl⟩
      · simp
      · exact exec_geometry (s := { s with port := rest }) hx
    exact .inr ⟨.inl hvb, .inl hpl⟩

/-- Settles O54: no command's effect touches VB or PL, no step the parameters, and the inversion of a step gives the
moves that change VB or PL. -/
theorem onlyTheGeometryStageWritesGeometry : Obligations.OnlyTheGeometryStageWritesGeometry := by
  unfold Obligations.OnlyTheGeometryStageWritesGeometry
  refine ⟨fun s t i => exec_geometry, fun s t => step_params, fun s t h hne => ?vb, fun s t h hne => ?pl⟩
  case vb =>
    rcases step_geometry_cases h with hp | ⟨hvb, -⟩
    · exact .inr hp
    · exact .inl (hvb.resolve_left hne)
  case pl =>
    rcases step_geometry_cases h with hp | ⟨-, hpl⟩
    · exact .inr hp
    · exact .inl (hpl.resolve_left hne)

/-! ## The row output port -/

theorem effectOf_rowOut_cases (i : Instr) (s : State) :
    (effectOf i s).rowOut = s.rowOut ∨ ∃ y, i = .read y ∧
      (effectOf i s).rowOut = s.rowOut ++ [readRow s.params s.mem (slotOf s.params y)] := by
  cases i with
  | init | reset | deinit | submit n | draw y => exact .inl rfl
  | read y => exact .inr ⟨y, rfl, rfl⟩

theorem exec_rowOut_cases {i : Instr} {s t : State} (h : exec i s = .next t) :
    t.rowOut = s.rowOut ∨ ∃ y, i = .read y ∧ s.life = .ready ∧ y < s.params.screenHeight ∧
      t.rowOut = s.rowOut ++ [readRow s.params s.mem (slotOf s.params y)] := by
  rcases exec_cases h with ⟨hacc, hc, rfl⟩ | ⟨code, -, -, rfl⟩
  · rcases effectOf_rowOut_cases i s with hkept | ⟨y, rfl, hrow⟩
    · exact .inl hkept
    · exact .inr ⟨y, rfl, by simpa using hacc, scanlineCheck_none_iff.1 hc, hrow⟩
  · exact .inl (raiseFault_rowOut ..)

/-- Settles O55: by the inversion of a step, only a command performed can deliver, and of the commands only READ. -/
theorem onlyReadDelivers : Obligations.OnlyReadDelivers := by
  unfold Obligations.OnlyReadDelivers
  intro s t h
  rcases step_cases h with ⟨-, rfl⟩ | ⟨rest, -, rfl⟩ | ⟨i, v, rest, -, -, rfl⟩ | ⟨p, r, rest, -, -, rfl⟩ |
    ⟨w, rest, hp, hw⟩
  · exact .inl rfl
  · exact .inl rfl
  · exact .inl rfl
  · exact .inl rfl
  · rcases hw with ⟨-, rfl⟩ | ⟨-, -, code, rfl⟩ | ⟨hf, i, hd, hx⟩
    · exact .inl rfl
    · exact .inl (raiseFault_rowOut ..)
    · rcases exec_rowOut_cases hx with hkept | ⟨y, rfl, hr, hy, hrow⟩
      · exact .inl hkept
      · exact .inr ⟨rest, w, y, hp, hf, hr, hd, hy, hrow⟩

/-! ## What a command does not see -/

/-- Two states of one LIFE, whose operands check alike, are led to related states when the command's effects and the
faults raised are related. -/
theorem exec_related {R : State → State → Prop} {i : Instr} {s s' t t' : State} (life : s'.life = s.life)
    (check : checkOf i s' = checkOf i s) (effect : R (effectOf i s) (effectOf i s'))
    (raise : ∀ code w, R (raiseFault code w s) (raiseFault code w s')) (h : exec i s = .next t)
    (h' : exec i s' = .next t') : R t t' := by
  by_cases hi : i = .init
  · subst hi
    cases h
    cases h'
    exact effect
  · by_cases hr : s.life = .ready
    · cases hc : checkOf i s with
      | none =>
        rw [exec_effect hr hc] at h
        rw [exec_effect (life.trans hr) (check.trans hc)] at h'
        cases h
        cases h'
        exact effect
      | some code =>
        rw [exec_fault hi hr hc] at h
        rw [exec_fault hi (life.trans hr) (check.trans hc)] at h'
        cases h
        cases h'
        exact raise code _
    · rw [exec_notReady hi hr] at h
      rw [exec_notReady hi (by rwa [life])] at h'
      cases h
      cases h'
      exact raise .notReady _

/-- A write of the cache does not see VB and PL. -/
theorem writeRow_with_geometry (p : Params) (m : Memory) (vb : Space Vertex) (pl : Space Polygon) (k : Nat) (r : Row) :
    writeRow p { m with vb := vb, pl := pl } k r = { writeRow p m k r with vb := vb, pl := pl } := by
  unfold writeRow
  split <;> rfl

theorem effectOf_withGeometry {i : Instr} (hi : ∀ n, i ≠ .submit n) (vb : Space Vertex) (pl : Space Polygon)
    (s : State) : effectOf i (withGeometry vb pl s) = withGeometry vb pl (effectOf i s) := by
  cases i with
  | init | reset | deinit | read y => rfl
  | submit n => exact absurd rfl (hi n)
  | draw y =>
    exact congrArg (fun m => { drawScanline y s with mem := m }) (writeRow_with_geometry s.params s.mem vb pl _ _)

theorem checkOf_withGeometry {i : Instr} (hi : ∀ n, i ≠ .submit n) (vb : Space Vertex) (pl : Space Polygon)
    (s : State) : checkOf i (withGeometry vb pl s) = checkOf i s := by
  cases i with
  | init | reset | deinit | draw y | read y => rfl
  | submit n => exact absurd rfl (hi n)

theorem raiseFault_withGeometry (code : FaultCode) (w : Word) (vb : Space Vertex) (pl : Space Polygon)
    (s : State) : raiseFault code w (withGeometry vb pl s) = withGeometry vb pl (raiseFault code w s) := by
  cases hf : s.fault with
  | none => rw [raiseFault_of_none hf, raiseFault_of_none (by exact hf)]; rfl
  | some f => rw [raiseFault_of_some hf, raiseFault_of_some (by exact hf)]

/-- Settles O56: the operand check and the effect of a command that is no SUBMIT commute with a change of VB and PL,
and so does raising a fault. -/
theorem geometryIsSeenBySubmitAlone : Obligations.GeometryIsSeenBySubmitAlone := by
  unfold Obligations.GeometryIsSeenBySubmitAlone
  intro s t i vb pl hi h
  obtain ⟨t', h'⟩ := exec_total i (withGeometry vb pl s)
  have hrel : t' = withGeometry vb pl t :=
    exec_related (s := s) (s' := withGeometry vb pl s) (R := fun a b => b = withGeometry vb pl a) rfl
      (checkOf_withGeometry hi vb pl s) (effectOf_withGeometry hi vb pl s)
      (fun code w => raiseFault_withGeometry code w vb pl s) h h'
  rw [h', hrel]

/-- No operand check reads the scratch state. -/
theorem checkOf_of_sameButScratch {s s' : State} (h : SameButScratch s s') (i : Instr) :
    checkOf i s' = checkOf i s := by
  rw [h]
  cases i <;> rfl

/-- No effect reads the scratch state: a DRAW starts both sweeps from empty (43_span_assembler.md R300). -/
theorem effectOf_sameButScratch {s s' : State} (h : SameButScratch s s') (i : Instr) :
    SameButScratch (effectOf i s) (effectOf i s') := by
  rw [h]
  cases i <;> rfl

theorem raiseFault_sameButScratch {s s' : State} (h : SameButScratch s s') (code : FaultCode) (w : Word) :
    SameButScratch (raiseFault code w s) (raiseFault code w s') := by
  have hfault : s'.fault = s.fault := by rw [h]
  cases hf : s.fault with
  | none =>
    rw [raiseFault_of_none hf, raiseFault_of_none (hfault.trans hf), h]
    rfl
  | some f => rwa [raiseFault_of_some hf, raiseFault_of_some (hfault.trans hf)]

/-- Settles O57: neither the operand check nor the effect of a command reads the scratch state. -/
theorem scratchIsNotObservable : Obligations.ScratchIsNotObservable := by
  unfold Obligations.ScratchIsNotObservable
  intro s s' t t' i h
  have hlife : s'.life = s.life := by rw [h]
  exact exec_related hlife (checkOf_of_sameButScratch h i) (effectOf_sameButScratch h i)
    (raiseFault_sameButScratch h)

end Sys2Proof.Machine
end

section
/-! SUBMIT, DRAW and READ: the count law (41_edge_builder.md), what each command leaves unchanged (60_exceptions.md
R603), the row a DRAW makes and a READ delivers (48_commands.md section 2, 47_scanline_cache.md), and drawing in any
order (42_edge_table.md section 3, 70_reset_and_hazards.md section 3). -/

namespace Sys2Proof.Machine

/-! ## Frames -/

/-- Raising a fault changes FAULT alone (60_exceptions.md R603). -/
theorem raiseFault_eq_with_fault (code : FaultCode) (w : Word) (s : State) :
    raiseFault code w s = { s with fault := (raiseFault code w s).fault } := by
  rcases raiseFault_cases code w s with ⟨-, h⟩ | ⟨f, -, h⟩ <;> rw [h]

/-- A command that changes FAULT changes nothing else: its effect leaves FAULT alone. -/
theorem exec_eq_of_fault_ne {i : Instr} {s t : State} (h : exec i s = .next t) (hf : t.fault ≠ s.fault) :
    t = { s with fault := t.fault } := by
  rcases exec_cases h with ⟨-, -, rfl⟩ | ⟨code, -, -, rfl⟩
  · obtain ⟨-, -, -, -, hfault⟩ := effectOf_frame i s
    exact absurd hfault hf
  · exact raiseFault_eq_with_fault code _ s

/-- Settles O19: the effect of SUBMIT is on ET and the draw count, and a fault's on FAULT. -/
theorem submitFrame : Obligations.SubmitFrame := by
  unfold Obligations.SubmitFrame
  intro s t n h
  refine ⟨?_, exec_eq_of_fault_ne h⟩
  rcases exec_cases h with ⟨-, -, rfl⟩ | ⟨code, -, -, rfl⟩
  · rfl
  · rcases raiseFault_cases code (encode (.submit n)) s with ⟨-, he⟩ | ⟨f, -, he⟩ <;> rw [he]

/-- Settles O39: the effect of DRAW field by field, its row being written to one slot; a fault changes FAULT alone. -/
theorem drawFrame : Obligations.DrawFrame := by
  unfold Obligations.DrawFrame
  intro s t y h
  have hfault := exec_eq_of_fault_ne h
  rcases exec_cases h with ⟨-, -, rfl⟩ | ⟨code, -, -, rfl⟩
  · exact ⟨rfl, rfl, rfl, rfl, writeRow_vb .., writeRow_pl .., fun hw => hw.symm,
      fun k hk => readRow_writeRow_other _ _ hk _, hfault⟩
  · simpa using hfault

/-! ## The count law -/

theorem length_buildEdges (m : Memory) (k n : Nat) :
    (buildEdges m k n).length = ((List.range n).map (fun q => (readPolygon m k q).n)).sum := by
  induction n with
  | zero => rfl
  | succ n ih =>
    rw [buildEdges_succ, List.length_append, ih, length_polygonEdges, List.range_succ, List.map_append,
      List.sum_append, List.map_singleton, List.sum_singleton]

/-- Settles O22: SUBMIT of admitted polygons sorts the edges built, of which there is one per side, each made by
`makeEdge` for its polygon. -/
theorem submitEdgeCount : Obligations.SubmitEdgeCount := by
  unfold Obligations.SubmitEdgeCount
  intro s t n hr hn ha h
  rw [exec_submit_of_admitted hr hn ha] at h
  cases h
  refine ⟨_, rebuildEdges_et n s, ?_, fun e he => ?_⟩
  · rw [length_sortEdges, length_buildEdges]
  · obtain ⟨p, hp, a, b, rfl⟩ := mem_buildEdges (mem_sortEdges.1 he)
    exact ⟨makeEdge_oriented p a b, (makeEdge_poly p a b).symm ▸ hp⟩

/-! ## The sorts -/

/-- Settles O24: the members of a class of equal keys are all in order, so insertion sort keeps their order
(`filter_insertionSort`). -/
theorem sortsAreStable : Obligations.SortsAreStable := by
  unfold Obligations.SortsAreStable
  refine ⟨rfl, rfl, fun l y0 y1 => filter_insertionSort _ (fun a b ha hb => ?edges) l,
    fun l x w => filter_insertionSort _ (fun a b ha hb => ?spans) l⟩
  case edges =>
    simp only [Bool.and_eq_true, decide_eq_true_eq] at ha hb
    simp [edgeBefore_iff, ha, hb]
  case spans =>
    simp only [Bool.and_eq_true, decide_eq_true_eq] at ha hb
    simp [spanBefore_iff, ha, hb]

/-- Settles O25: a sorted table, and what a filter leaves of one, is sorted, so the stable sort leaves it alone. -/
theorem resortingIsNoOp : Obligations.ResortingIsNoOp := by
  unfold Obligations.ResortingIsNoOp
  intro order l
  have hsorted := sortEdges_sorted order l
  exact ⟨sortEdges_of_sorted hsorted, fun keep => sortEdges_of_sorted (hsorted.sublist List.filter_sublist)⟩

/-! ## DRAW -/

/-- Settles O27: the walk by index is the fold over the active edges from the tail (`assemble_eq`). -/
theorem walkRetiresExactlyTheExpired : Obligations.WalkRetiresExactlyTheExpired := by
  unfold Obligations.WalkRetiresExactlyTheExpired
  rintro L y et k sw rfl
  rw [assemble_eq]
  exact ⟨rfl, rfl, rfl, rfl⟩

section
variable {s : State} {y : Nat}

theorem exec_draw_of_lt (hr : s.life = .ready) (hy : y < s.params.screenHeight) :
    exec (.draw y) s = .next (drawScanline y s) :=
  exec_effect (i := .draw y) hr (scanlineCheck_of_lt hy)

theorem exec_read_of_lt (hr : s.life = .ready) (hy : y < s.params.screenHeight) :
    exec (.read y) s = .next (deliver (readRow s.params s.mem (slotOf s.params y)) s) :=
  exec_effect (i := .read y) hr (scanlineCheck_of_lt hy)

theorem resolved_eq_rowFrom (y : Nat) (s : State) :
    resolved y s = rowFrom s.params (edgeTableOf s.et s.draws) y s.draws := rfl

/-- A DRAW's slot reads as the row it made (44_depth_resolver.md R359). -/
theorem readRow_drawScanline_same (y : Nat) (s : State) :
    readRow s.params (drawScanline y s).mem (slotOf s.params y) =
      (rowFrom s.params (edgeTableOf s.et s.draws) y s.draws).row := by
  rw [drawScanline_mem, readRow_writeRow_same, resolved_eq_rowFrom]

theorem readRow_drawScanline_other {k : Nat} (h : k ≠ slotOf s.params y) :
    readRow s.params (drawScanline y s).mem k = readRow s.params s.mem k := by
  rw [drawScanline_mem, readRow_writeRow_other _ _ h]

end

/-- Settles O38: a DRAW performed is `drawScanline`, whose edge table is filtered by the walk and whose row is written
to one slot. -/
theorem drawResult : Obligations.DrawResult := by
  unfold Obligations.DrawResult
  intro s y hr hy
  refine ⟨_, exec_draw_of_lt hr hy, rfl, rfl, ?_, readRow_drawScanline_same y s,
    fun k hk => readRow_drawScanline_other hk, fun het => readRow_drawScanline_of_empty het y⟩
  rw [drawScanline_et, assembled, assemble_et]

/-! ## READ -/

theorem encode_read_toNat {y : Nat} (h : y < 65536) : (encode (.read y)).toNat = 0x60000000 + y := by
  rw [encode, commandWord_toNat, BitVec.toNat_ofNat, Nat.mod_eq_of_lt h]
  rfl

/-- Settles O40: a READ performed is `deliver`; outside READY and above the screen the frame of a command raises its
fault. -/
theorem readResult : Obligations.ReadResult := by
  unfold Obligations.ReadResult
  exact ⟨fun y => encode_read_toNat, fun s y hr hy => exec_read_of_lt hr hy,
    fun s y hr hf => exec_eq_faulted_notReady (by simp) hr hf,
    fun s y hr hy hf => exec_eq_faulted_of_check (by simp) hr hf (scanlineCheck_of_le hy)⟩

/-- Settles O41: what a READ delivers is what its slot reads as after the DRAW. -/
theorem cacheOverwrite : Obligations.CacheOverwrite := by
  unfold Obligations.CacheOverwrite
  intro s t u y y' hr hf hy hy' ht hu
  rw [exec_draw_of_lt hr hy] at ht
  cases ht
  rw [exec_read_of_lt (s := drawScanline y s) hr hy'] at hu
  cases hu
  refine ⟨fun hslot => ?same, fun hslot => ?other, Nat.add_mod_right y _⟩
  case same =>
    have hrow := readRow_drawScanline_same y s
    rw [slotOf, ← hslot] at hrow
    exact congrArg (fun r => s.rowOut ++ [r]) hrow
  case other =>
    exact congrArg (fun r => s.rowOut ++ [r]) (readRow_drawScanline_other (y := y) hslot)

/-! ## Scanlines drawn in any order -/

/-- An edge ACTIVE at a scanline is not expired at any scanline that is not below it. -/
theorem not_expired_of_active {e : Edge} {y y' : Nat} (hy : y' ≤ y) (h : classify e y' = .active) :
    classify e y ≠ .expired := by
  rw [classify_eq_active_iff] at h
  rw [ne_eq, classify_eq_expired_iff]
  omega

/-- Retirement at a scanline takes no edge that is ACTIVE at it or below (42_edge_table.md section 3). -/
theorem activeEdges_assemble {y y' : Nat} (hy : y' ≤ y) (L : Interpolation) (et : List Edge) (j : Nat) :
    activeEdges y' (assemble L y et j).et = activeEdges y' et := by
  rw [assemble_et, activeEdges, activeEdges, List.filter_filter]
  refine List.filter_congr fun e _ => ?_
  by_cases h : classify e y' = .active
  · simp [h, not_expired_of_active hy h]
  · simp [h]

/-- A row is made of the ACTIVE edges alone (42_edge_table.md R257). -/
theorem rowFrom_congr {p : Params} {et et' : List Edge} {y : Nat} (h : activeEdges y et = activeEdges y et')
    (k : Nat) : rowFrom p et y k = rowFrom p et' y k := by
  rw [rowFrom, rowFrom, assemble_eq, assemble_eq, h]

theorem rowFrom_assemble {y y' : Nat} (hy : y' ≤ y) (p : Params) (et : List Edge) (k j : Nat) :
    rowFrom p (assemble p.interpolation y et j).et y' k = rowFrom p et y' k :=
  rowFrom_congr (activeEdges_assemble hy _ et j) k

/-- Settles O42: the edges ACTIVE at the lower scanline, of which the row is made, are those of the full table. -/
theorem lowerScanlinesKeepTheirRows : Obligations.LowerScanlinesKeepTheirRows := by
  unfold Obligations.LowerScanlinesKeepTheirRows
  exact fun p et y y' k j hy => rowFrom_assemble hy p et k j

/-- READY with an edge table of which nothing has expired at scanline y, and from which a DRAW there makes the row
`r` when `k` free values were drawn before it. -/
structure StillMakes (p : Params) (y k : Nat) (r : Row) (s : State) : Prop where
  life : s.life = .ready
  params : s.params = p
  table : ∃ l, s.et = .known l ∧ (∀ e ∈ l, classify e y ≠ .expired) ∧ (rowFrom p l y k).row = r

theorem filter_unexpired {y : Nat} {l : List Edge} (h : ∀ e ∈ l, classify e y ≠ .expired) :
    l.filter (fun e => decide (classify e y ≠ .expired)) = l :=
  List.filter_eq_self.2 fun e he => decide_eq_true (h e he)

/-- After a DRAW of y the edge table still makes its row. -/
theorem stillMakes_drawScanline {s : State} (hr : s.life = .ready) (y : Nat) :
    StillMakes s.params y s.draws (rowFrom s.params (edgeTableOf s.et s.draws) y s.draws).row (drawScanline y s) := by
  refine ⟨hr, rfl, _, rfl, fun e he => ?_, congrArg Resolved.row (rowFrom_assemble (le_refl y) ..)⟩
  rw [assembled, assemble_et] at he
  exact of_decide_eq_true (List.mem_filter.1 he).2

/-- A DRAW at a scanline not below y takes nothing from the row of y (42_edge_table.md section 3). -/
theorem StillMakes.after_drawScanline {p : Params} {y y' k : Nat} {r : Row} {s : State} (h : StillMakes p y k r s)
    (hy : y ≤ y') : StillMakes p y k r (drawScanline y' s) := by
  obtain ⟨hr, rfl, l, het, hl, hrow⟩ := h
  refine ⟨hr, rfl, _, drawScanline_et_of_known het y', fun e he => hl e (List.mem_of_mem_filter he), ?_⟩
  rw [← hrow, ← assemble_et s.params.interpolation y' l 0, rowFrom_assemble hy]

theorem StillMakes.after_draws {p : Params} {y k : Nat} {r : Row} {ys : List Nat} {s t : State}
    (h : StillMakes p y k r s) (hys : ∀ y' ∈ ys, y ≤ y' ∧ y' < p.screenHeight) (ht : DrawsLeadTo ys s t) :
    StillMakes p y k r t := by
  induction ys generalizing s with
  | nil => exact ht ▸ h
  | cons y' ys ih =>
    obtain ⟨u, hu, hrest⟩ := ht
    obtain ⟨hy, hlt⟩ := hys y' List.mem_cons_self
    rw [exec_draw_of_lt h.life (by rwa [h.params])] at hu
    cases hu
    exact ih (h.after_drawScanline hy) (fun y'' hmem => hys y'' (List.mem_cons_of_mem _ hmem)) hrest

/-- Settles O43: the first DRAW leaves an edge table that still makes the row of y (`StillMakes`), the DRAWs between
keep that, and the last one makes the row and finds nothing expired. -/
theorem repeatedDrawGivesTheSameRow : Obligations.RepeatedDrawGivesTheSameRow := by
  unfold Obligations.RepeatedDrawGivesTheSameRow
  intro s t u v y between hr hf hy hys ht hu hv hdraws
  rw [exec_draw_of_lt hr hy] at ht
  cases ht
  have hstill : StillMakes s.params y s.draws _ u := (stillMakes_drawScanline hr y).after_draws hys hu
  obtain ⟨hru, hparams, l, het, hl, hrow⟩ := hstill
  rw [exec_draw_of_lt hru (by rwa [hparams])] at hv
  cases hv
  refine ⟨?_, ?_⟩
  · have hlast := readRow_drawScanline_same y u
    rw [hparams, het, hdraws, edgeTableOf, hrow] at hlast
    rw [drawScanline_params, drawScanline_params, hparams]
    exact hlast.trans (readRow_drawScanline_same y s).symm
  · rw [drawScanline_et_of_known het, filter_unexpired hl, het]

end Sys2Proof.Machine
end

section
/-! The interpolator (45_interpolator.md): the sample at the ends (R401, R406), a zero-length range (R404), a zero
divisor (R408), the arithmetic in numbers (R410), and its bounds (R409); and the round trip of a channel
(46_color_codec.md R454). -/

namespace Sys2Proof.Machine

/-! ## The attributes of a sample -/

/-- The five perspective-corrected attributes (45_interpolator.md R403). -/
def correctedAttributes : List (Endpoint → Word) :=
  [fun d => d.c.ch0, fun d => d.c.ch1, fun d => d.c.ch2, fun d => d.s, fun d => d.t]

/-- Each corrected value of a sample is `perspective` of it, for its own number. -/
theorem sampleAt_attribute {f : Endpoint → Word} (hf : f ∈ correctedAttributes) (L : Interpolation) (A B : Endpoint)
    (q : Position) (k : Nat) : ∃ n, f (sampleAt L A B q k) = perspective L A B f n q k := by
  simp only [correctedAttributes, List.mem_cons, List.not_mem_nil, or_false] at hf
  rcases hf with rfl | rfl | rfl | rfl | rfl
  · exact ⟨0, rfl⟩
  · exact ⟨1, rfl⟩
  · exact ⟨2, rfl⟩
  · exact ⟨3, rfl⟩
  · exact ⟨4, rfl⟩

theorem sampleAt_x (L : Interpolation) (A B : Endpoint) (q : Position) (k : Nat) :
    (sampleAt L A B q k).x = wrap32 (lerp L A.x.toInt B.x.toInt q) := rfl

theorem sampleAt_w (L : Interpolation) (A B : Endpoint) (q : Position) (k : Nat) :
    (sampleAt L A B q k).w = wrap32 (lerp L A.w.toInt B.w.toInt q) := rfl

/-- A sample whose x, w and attributes are those of an endpoint is that endpoint. -/
theorem sampleAt_eq {L : Interpolation} {A B E : Endpoint} {q : Position} {k : Nat}
    (hx : (sampleAt L A B q k).x = E.x) (hw : (sampleAt L A B q k).w = E.w)
    (hattr : ∀ f n, perspective L A B f n q k = f E) : sampleAt L A B q k = E := by
  rw [sampleAt_x] at hx
  rw [sampleAt_w] at hw
  simp only [sampleAt, hx, hw, hattr]

/-! ## The ends -/

section
variable {L : Interpolation} {A B : Endpoint} {q : Position} {k : Nat}

theorem sampleAt_first_linear (h : q.offset = 0) :
    (sampleAt L A B q k).x = A.x ∧ (sampleAt L A B q k).w = A.w := by
  simp only [sampleAt_x, sampleAt_w, lerp_first h, wrap32_toInt, and_self]

theorem sampleAt_second_linear (hi : q.inside) (h : q.offset = q.range) :
    (sampleAt L A B q k).x = B.x ∧ (sampleAt L A B q k).w = B.w := by
  simp only [sampleAt_x, sampleAt_w, lerp_second hi h, wrap32_toInt, and_self]

/-- At the first end, where its depth is not 0, the sample is that end and draws nothing (45_interpolator.md R406). -/
theorem sampleAt_first (h : q.offset = 0) (hw : A.w ≠ 0) :
    sampleAt L A B q k = A ∧ drawsOf L A B q = 0 := by
  have hdepth : A.w.toInt ≠ 0 := (toInt_eq_zero_iff A.w).not.2 hw
  have hdiv : zeroDivisor L A.w.toInt B.w.toInt q = false := by
    rw [zeroDivisor_first h]
    exact decide_eq_false hdepth
  obtain ⟨hx, hw'⟩ := sampleAt_first_linear (L := L) (A := A) (B := B) (k := k) h
  refine ⟨sampleAt_eq hx hw' fun f n => ?_, drawsOf_of_ne hdiv⟩
  rw [perspective_of_ne hdiv, quotient_first h hdepth, wrap32_toInt]

/-- At the second end, where its depth is not 0, the sample is that end and draws nothing (45_interpolator.md R406). -/
theorem sampleAt_second (hi : q.inside) (h : q.offset = q.range) (hw : B.w ≠ 0) :
    sampleAt L A B q k = B ∧ drawsOf L A B q = 0 := by
  have hdepth : B.w.toInt ≠ 0 := (toInt_eq_zero_iff B.w).not.2 hw
  have hdiv : zeroDivisor L A.w.toInt B.w.toInt q = false := by
    rw [zeroDivisor_second hi h]
    exact decide_eq_false hdepth
  obtain ⟨hx, hw'⟩ := sampleAt_second_linear (L := L) (A := A) (B := B) (k := k) hi h
  refine ⟨sampleAt_eq hx hw' fun f n => ?_, drawsOf_of_ne hdiv⟩
  rw [perspective_of_ne hdiv, quotient_second hi h hdepth, wrap32_toInt]

end

/-- Settles O44: the position at or outside an end has the end's offset, where the sample is the end's. -/
theorem clampLaw : Obligations.ClampLaw := by
  unfold Obligations.ClampLaw
  intro L A B ca cb p k hne
  have hi := position_inside hne p
  rw [interp_of_ne hne]
  refine ⟨fraction_bounds hi _, fun hp => ?first, fun hp => ?second⟩
  case first =>
    have hq := position_at_first hp
    refine ⟨⟨_, rfl, sampleAt_first_linear hq⟩, fun hw => ?_⟩
    obtain ⟨hs, hd⟩ := sampleAt_first (L := L) (B := B) (k := k) hq hw
    rw [hs, hd, Nat.add_zero]
  case second =>
    have hq := position_at_second hp
    refine ⟨⟨_, rfl, sampleAt_second_linear hi hq⟩, fun hw => ?_⟩
    obtain ⟨hs, hd⟩ := sampleAt_second (L := L) (A := A) (k := k) hi hq hw
    rw [hs, hd, Nat.add_zero]

/-! ## A zero-length range and a zero divisor -/

/-- Settles O45, by the two cases of the primitive. -/
theorem degenerateLaw : Obligations.DegenerateLaw := by
  unfold Obligations.DegenerateLaw
  intro L A B ca cb p k
  refine ⟨?_, fun h => interp_of_eq h L A B p k⟩
  by_cases h : ca = cb
  · simp [h, interp_of_eq]
  · simp [h, interp_of_ne]

theorem drawsOf_of_eq {L : Interpolation} {A B : Endpoint} {q : Position}
    (h : zeroDivisor L A.w.toInt B.w.toInt q = true) : drawsOf L A B q = 5 := by
  simp [drawsOf, h]

/-- Settles O47: each of the five is the free value of its number, and x and w are those of every sample. -/
theorem zeroDivisorLaw : Obligations.ZeroDivisorLaw := by
  unfold Obligations.ZeroDivisorLaw
  intro L A B ca cb p k hne h
  have hattr := fun f n => perspective_of_eq h f n k
  refine ⟨sampleAt L A B (position ca cb p) k, ?_, rfl, rfl, ?_, hattr _ 3, hattr _ 4⟩
  · rw [interp_of_ne hne, drawsOf_of_eq h]
  · simp only [sampleAt, hattr, Nat.add_zero]

/-! ## The arithmetic in numbers -/

/-- The position with its offset in numbers (45_interpolator.md R401). -/
theorem position_eq {ca cb : Int} (h : ca ≠ cb) (p : Int) : position ca cb p =
    ⟨if ca < cb then min (max (p - ca) 0) (cb - ca) else min (max (p - ca) (cb - ca)) 0, cb - ca⟩ := by
  unfold position
  rcases lt_or_gt_of_ne h with h | h
  · rw [clampedOffset_pos h, if_pos h]
  · rw [clampedOffset_neg h, if_neg (by omega)]

section
variable (T : Nat) (q : Position)

theorem fraction_eq : fraction T q = Int.fdiv (q.offset * 2 ^ T) q.range := by
  rw [fraction, floordiv, shl_eq]

theorem lerp_reference (a b : Int) : lerp ⟨T, .reference⟩ a b q =
    Int.fdiv (a * (2 ^ T - fraction T q) + b * fraction T q) (2 ^ T) := by
  rw [lerp, referenceLerp, floordiv, weightedSum_eq, shl_eq, one_mul]

theorem zeroDivisor_reference (aw bw : Int) : zeroDivisor ⟨T, .reference⟩ aw bw q =
    decide (aw * (2 ^ T - fraction T q) + bw * fraction T q = 0) := by
  rw [zeroDivisor, weightedSum_eq]

theorem quotient_reference (n : Nat) (af aw bf bw : Int) : quotient ⟨T, .reference⟩ n af aw bf bw q =
    Int.fdiv (af * aw * (2 ^ T - fraction T q) + bf * bw * fraction T q)
      (aw * (2 ^ T - fraction T q) + bw * fraction T q) := by
  rw [quotient, referenceAttribute, floordiv, weightedSum_eq, weightedSum_eq]

end

/-- A sample that draws nothing has a divisor that is not 0. -/
theorem zeroDivisor_of_drawsOf {L : Interpolation} {A B : Endpoint} {q : Position} (h : drawsOf L A B q = 0) :
    zeroDivisor L A.w.toInt B.w.toInt q = false := by
  cases hz : zeroDivisor L A.w.toInt B.w.toInt q with
  | false => rfl
  | true => rw [drawsOf_of_eq hz] at h; cases h

/-- Settles O48: the reference by the definitions written out at the position in numbers, another arithmetic by its
slacks (`lerp_slack`, `quotient_slack`). -/
theorem interpolationArithmetic : Obligations.InterpolationArithmetic := by
  unfold Obligations.InterpolationArithmetic
  refine ⟨fun T A B ca cb p off t u D k hne hoff ht hu hD => ?reference,
    fun T j s s' A B ca cb p off u D k hne hoff hu hD => ?other⟩
  case reference =>
    have hq : position ca cb p = ⟨off, cb - ca⟩ := by rw [position_eq hne, hoff]
    have hfrac : fraction T ⟨off, cb - ca⟩ = t := by rw [fraction_eq, ht]
    have hdiv : zeroDivisor ⟨T, .reference⟩ A.w.toInt B.w.toInt ⟨off, cb - ca⟩ = decide (D = 0) := by
      rw [zeroDivisor_reference, hfrac, ← hu, ← hD]
    rw [interp_of_ne hne, hq]
    refine ⟨_, rfl, ?_, ?_, fun hne0 => ?_, fun h0 => ?_⟩
    · rw [sampleAt_x, lerp_reference, hfrac, ← hu]
    · rw [sampleAt_w, lerp_reference, hfrac, ← hu]
    · rw [decide_eq_false hne0] at hdiv
      refine ⟨by rw [drawsOf_of_ne hdiv, Nat.add_zero], fun f hf => ?_⟩
      obtain ⟨n, hn⟩ := sampleAt_attribute hf ⟨T, .reference⟩ A B ⟨off, cb - ca⟩ k
      rw [hn, perspective_of_ne hdiv, quotient_reference, hfrac, ← hu, ← hD]
    · rw [drawsOf_of_eq (hdiv.trans (decide_eq_true h0))]
  case other =>
    have hq : position ca cb p = ⟨off, cb - ca⟩ := by rw [position_eq hne, hoff]
    have hi : Position.inside ⟨off, cb - ca⟩ := hq ▸ position_inside hne p
    have hsum (a b : Int) : exactSum a b ⟨off, cb - ca⟩ = a * u + b * off := by rw [exactSum, hu]
    have hlinear (a b : Int) : |lerp ⟨T, .other j s s'⟩ a b ⟨off, cb - ca⟩ -
        Int.fdiv (a * u + b * off) (cb - ca)| ≤ s := by
      rw [← hsum]
      exact lerp_slack rfl hi a b
    rw [interp_of_ne hne, hq]
    refine ⟨_, _, _, rfl, rfl, rfl, hlinear _ _, hD ▸ hlinear _ _, fun hne0 hdraws f hf => ?_⟩
    have hdiv := zeroDivisor_of_drawsOf (Nat.left_eq_add.1 hdraws.symm)
    obtain ⟨n, hn⟩ := sampleAt_attribute hf ⟨T, .other j s s'⟩ A B ⟨off, cb - ca⟩ k
    refine ⟨_, hn.trans (perspective_of_ne hdiv f n k), ?_⟩
    rw [hD, ← hsum, ← hsum]
    exact quotient_slack rfl hi (by rwa [hsum, ← hD]) n _ _

/-! ## The bounds of a sample -/

/-- A value between two fields' fits a field. -/
theorem toInt_wrap32_of_between {a b : Word} {v : Int} (h : min a.toInt b.toInt ≤ v ∧ v ≤ max a.toInt b.toInt) :
    (wrap32 v).toInt = v := by
  have ha := toInt_bounds a
  have hb := toInt_bounds b
  exact toInt_wrap32 (by omega) (by omega)

theorem wrap32_lerp_between {q : Position} (hi : q.inside) (L : Interpolation) (a b : Word) :
    min a.toInt b.toInt ≤ (wrap32 (lerp L a.toInt b.toInt q)).toInt ∧
    (wrap32 (lerp L a.toInt b.toInt q)).toInt ≤ max a.toInt b.toInt := by
  rw [toInt_wrap32_lerp hi]
  exact lerp_between hi L _ _

theorem perspective_between {q : Position} (hi : q.inside) {A B : Endpoint}
    (h : sameSign A.w.toInt B.w.toInt = true) (L : Interpolation) (f : Endpoint → Word) (n k : Nat) :
    min (f A).toInt (f B).toInt ≤ (perspective L A B f n q k).toInt ∧
    (perspective L A B f n q k).toInt ≤ max (f A).toInt (f B).toInt := by
  have hb := quotient_between hi h L n (f A).toInt (f B).toInt
  rw [perspective_of_ne (zeroDivisor_of_sameSign hi h L), toInt_wrap32_of_between hb]
  exact hb

/-- Settles O49: linear interpolation stays between its ends, and so do the corrected values between depths of one
sign; what stays between two fields does not wrap. -/
theorem samplesLieBetweenTheEnds : Obligations.SamplesLieBetweenTheEnds := by
  unfold Obligations.SamplesLieBetweenTheEnds
  intro L A B e ca cb p k k' h
  have hne : ca ≠ cb := by
    intro he
    rw [interp_of_eq he] at h
    cases h
  rw [interp_of_ne hne] at h
  cases h
  have hi := position_inside hne p
  refine ⟨wrap32_lerp_between hi L _ _, wrap32_lerp_between hi L _ _, fun hsign f hf => ?_⟩
  obtain ⟨n, hn⟩ := sampleAt_attribute hf L A B (position ca cb p) k
  rw [hn]
  exact perspective_between hi (sameSign_iff.2 hsign) L f n k

/-! ## The color codec -/

/-- Settles O51: contraction keeps bits 5 to 1 of 2 raw + 1 (`expandChannel_toNat`, `contractChannel_toNat`). -/
theorem codecRoundTrip : Obligations.CodecRoundTrip := by
  unfold Obligations.CodecRoundTrip
  intro raw
  have hraw : raw.toNat < 32 := raw.isLt
  rw [contractChannel_toNat, expandChannel_toNat]
  omega

end Sys2Proof.Machine
end

section
/-! The walk's bucket (10_state.md R61, 43_span_assembler.md R301, R306, R309): BK names exactly the open spans, and so
each polygon's endpoints pair off. -/

namespace Sys2Proof.Machine

/-! ## BK names the open spans -/

/-- Whether BK names the open spans does not depend on the edge table or the draws. -/
theorem bucketNamesOpenSpans_congr {sw sw' : Sweep} (hst : sw'.st = sw.st) (hbk : sw'.bk = sw.bk) :
    BucketNamesOpenSpans sw' ↔ BucketNamesOpenSpans sw := by
  rw [BucketNamesOpenSpans, BucketNamesOpenSpans, hst, hbk]

theorem bucketNamesOpenSpans_empty (et : List Edge) (k : Nat) : BucketNamesOpenSpans ⟨et, [], [], k⟩ :=
  ⟨by simp, by simp⟩

section
variable {p : Nat} {sw : Sweep}

/-- The table after a span is opened: the spans before it, and the open one at its end. -/
theorem getElem?_openSpan {k : Nat} {ep : Endpoint} {sp : Span} (h : (openSpan p ep sw).st[k]? = some sp) :
    sw.st[k]? = some sp ∨ (k = sw.st.length ∧ sp = ⟨ep, Endpoint.zero, p, false⟩) := by
  rcases Nat.lt_or_ge k sw.st.length with hlt | hge
  · exact .inl ((List.getElem?_append_left hlt).symm.trans h)
  · rw [openSpan, List.getElem?_append_right hge, List.getElem?_singleton] at h
    split at h
    · exact .inr ⟨by omega, (Option.some.inj h).symm⟩
    · cases h

/-- Opening a span for a polygon that has none open keeps BK right: no open span is of that polygon. -/
theorem bucketNamesOpenSpans_openSpan (h : BucketNamesOpenSpans sw) (hp : Space.get sw.bk p = none) (ep : Endpoint) :
    BucketNamesOpenSpans (openSpan p ep sw) := by
  obtain ⟨names, named⟩ := h
  refine ⟨fun k sp hk ho => ?_, fun q k hq => ?_⟩
  · rcases getElem?_openSpan hk with hold | ⟨rfl, rfl⟩
    · have hget := names k sp hold ho
      have hne : sp.poly ≠ p := by
        rintro rfl
        rw [hp] at hget
        cases hget
      exact (Space.get_set_other sw.bk hne _).trans hget
    · exact Space.get_set_same sw.bk p _
  · by_cases hqp : q = p
    · subst hqp
      obtain rfl : sw.st.length = k := Option.some.inj ((Space.get_set_same sw.bk q _).symm.trans hq)
      exact ⟨_, List.getElem?_concat_length, rfl, rfl⟩
    · obtain ⟨sp, hsp, hopen, hpoly⟩ := named q k ((Space.get_set_other sw.bk hqp _).symm.trans hq)
      have hlt : k < sw.st.length := (List.getElem?_eq_some_iff.1 hsp).1
      exact ⟨sp, (List.getElem?_append_left hlt).trans hsp, hopen, hpoly⟩

/-- Closing the span BK names for a polygon keeps BK right: no other open span is of that polygon. -/
theorem bucketNamesOpenSpans_closeSpan (h : BucketNamesOpenSpans sw) {k : Nat} (hp : Space.get sw.bk p = some k)
    (ep : Endpoint) : BucketNamesOpenSpans (closeSpan p k ep sw) := by
  obtain ⟨names, named⟩ := h
  obtain ⟨a, ha, -, hpoly⟩ := named p k hp
  refine ⟨fun j sp hj ho => ?_, fun q j hq => ?_⟩
  · by_cases hjk : j = k
    · subst hjk
      rw [getElem?_closeSpan_same ha] at hj
      cases hj
      simp at ho
    · rw [getElem?_closeSpan_other hjk] at hj
      have hget := names j sp hj ho
      have hne : sp.poly ≠ p := by
        rintro rfl
        exact hjk (Option.some.inj (hget.symm.trans hp))
      exact (Space.get_erase_other sw.bk hne).trans hget
  · have hqp : q ≠ p := by
      rintro rfl
      exact absurd ((Space.get_erase_same sw.bk q).symm.trans hq) (by simp)
    obtain ⟨sp, hsp, hopen, hq'⟩ := named q j ((Space.get_erase_other sw.bk hqp).symm.trans hq)
    have hjk : j ≠ k := by
      rintro rfl
      obtain rfl : a = sp := Option.some.inj (ha.symm.trans hsp)
      exact hqp (hq'.symm.trans hpoly)
    exact ⟨sp, (getElem?_closeSpan_other hjk p ep sw).trans hsp, hopen, hq'⟩

theorem bucketNamesOpenSpans_placeEndpoint (h : BucketNamesOpenSpans sw) (p : Nat) (ep : Endpoint) :
    BucketNamesOpenSpans (placeEndpoint p ep sw) := by
  cases hp : Space.get sw.bk p with
  | none =>
    rw [placeEndpoint_of_none hp]
    exact bucketNamesOpenSpans_openSpan h hp ep
  | some k =>
    rw [placeEndpoint_of_some hp]
    exact bucketNamesOpenSpans_closeSpan h hp ep

end

theorem bucketNamesOpenSpans_assembleEdge {sw : Sweep} (h : BucketNamesOpenSpans sw) (L : Interpolation) (y : Nat)
    (e : Edge) : BucketNamesOpenSpans (assembleEdge L y e sw) :=
  foldr_assembleEdge_keeps (fun _ _ h => (bucketNamesOpenSpans_congr rfl rfl).2 h)
    (fun p ep _ h => bucketNamesOpenSpans_placeEndpoint h p ep) h [e]

/-- Everything a visit of the walk can do: assemble an edge, or leave the span table and BK alone. -/
theorem sweepEdge_cases (L : Interpolation) (y i : Nat) (sw : Sweep) :
    (∃ e, sweepEdge L y i sw = assembleEdge L y e sw) ∨
    ((sweepEdge L y i sw).st = sw.st ∧ (sweepEdge L y i sw).bk = sw.bk) := by
  unfold sweepEdge
  split
  case h_1 => exact .inr ⟨rfl, rfl⟩
  case h_2 e _ =>
    split
    · exact .inr ⟨rfl, rfl⟩
    · exact .inr ⟨rfl, rfl⟩
    · exact .inl ⟨e, rfl⟩

/-- Settles O30: a visit either leaves the span table and BK or places an endpoint, which opens a span for a polygon
with none open or closes the one BK names. -/
theorem bucketNamesOpenSpansThroughout : Obligations.BucketNamesOpenSpansThroughout := by
  unfold Obligations.BucketNamesOpenSpansThroughout
  refine ⟨bucketNamesOpenSpans_empty, fun L y i sw h => ?_⟩
  rcases sweepEdge_cases L y i sw with ⟨e, he⟩ | ⟨hst, hbk⟩
  · exact he ▸ bucketNamesOpenSpans_assembleEdge h L y e
  · exact (bucketNamesOpenSpans_congr hst hbk).2 h

/-! ## The endpoints of a polygon pair off -/

/-- A closed span of polygon p. -/
def closedOf (p : Nat) (s : Span) : Bool := decide (s.poly = p) && s.closed

/-- How many endpoints of polygon p a sweep has placed: two in each closed span and one in an open one. -/
def endpointsPlaced (p : Nat) (sw : Sweep) : Nat :=
  2 * sw.st.countP (closedOf p) + if hasOpenSpan sw.bk p then 1 else 0

theorem spansOf_closedSpans (p : Nat) (st : List Span) : spansOf p (closedSpans st) = st.countP (closedOf p) := by
  rw [spansOf, closedSpans, List.filter_filter, List.countP_eq_length_filter]
  rfl

theorem countP_openSpan (q p : Nat) (ep : Endpoint) (sw : Sweep) :
    (openSpan p ep sw).st.countP (closedOf q) = sw.st.countP (closedOf q) := by
  simp [openSpan, closedOf]

/-- Closing an open span adds one closed span to its polygon and none to another. -/
theorem countP_closeSpan {k : Nat} {sw : Sweep} {a : Span} (ha : sw.st[k]? = some a) (hopen : a.closed = false)
    (q p : Nat) (ep : Endpoint) :
    (closeSpan p k ep sw).st.countP (closedOf q) = sw.st.countP (closedOf q) + if a.poly = q then 1 else 0 := by
  obtain ⟨hk, rfl⟩ := List.getElem?_eq_some_iff.1 ha
  have hset : (closeSpan p k ep sw).st = sw.st.set k (closedWith ep sw.st[k]) := by
    rw [closeSpan, List.modify_eq_set_getElem?, ha]
    rfl
  rw [hset, List.countP_set hk]
  simp [closedOf, hopen]

/-- Placing an endpoint of a polygon counts for that polygon alone. -/
theorem endpointsPlaced_placeEndpoint {sw : Sweep} (h : BucketNamesOpenSpans sw) (q p : Nat) (ep : Endpoint) :
    endpointsPlaced q (placeEndpoint p ep sw) = endpointsPlaced q sw + if p = q then 1 else 0 := by
  have hother : q ≠ p → hasOpenSpan (placeEndpoint p ep sw).bk q = hasOpenSpan sw.bk q := fun hq => by
    rw [hasOpenSpan, hasOpenSpan, get_placeEndpoint_bk_other hq]
  unfold endpointsPlaced
  cases hp : Space.get sw.bk p with
  | none =>
    rw [placeEndpoint_of_none hp] at hother ⊢
    rw [countP_openSpan]
    by_cases hq : q = p
    · subst hq
      simp [hasOpenSpan, openSpan, hp]
    · simp [hother hq, Ne.symm hq]
  | some k =>
    obtain ⟨-, named⟩ := h
    obtain ⟨a, ha, hopen, rfl⟩ := named p k hp
    rw [placeEndpoint_of_some hp] at hother ⊢
    rw [countP_closeSpan ha hopen]
    by_cases hq : q = a.poly
    · subst hq
      simp [hasOpenSpan, closeSpan, hp, Nat.mul_add]
    · simp [hother hq, Ne.symm hq]

/-- An edge that can contribute to a span of polygon p: not of zero height, and p's (43_span_assembler.md R302). -/
def contributes (p : Nat) (e : Edge) : Bool := decide (e.y0 ≠ e.y1) && decide (e.poly = p)

theorem endpointsPlaced_assembleEdge {sw : Sweep} (h : BucketNamesOpenSpans sw) (p : Nat) (L : Interpolation)
    (y : Nat) (e : Edge) :
    endpointsPlaced p (assembleEdge L y e sw) = endpointsPlaced p sw + if contributes p e then 1 else 0 := by
  by_cases he : e.y0 = e.y1
  · rw [assembleEdge_of_eq he]
    simp [contributes, he]
  · obtain ⟨ep, k, hs⟩ := sampleEdge_of_ne he L y sw.draws
    have hdrawn : BucketNamesOpenSpans { sw with draws := k } := (bucketNamesOpenSpans_congr rfl rfl).2 h
    rw [assembleEdge_of_ne he hs, endpointsPlaced_placeEndpoint hdrawn]
    simp [contributes, he, endpointsPlaced]

/-- The endpoints placed by assembling a list of edges are one for each that contributes. -/
theorem endpointsPlaced_foldr (p : Nat) (L : Interpolation) (y : Nat) (l : List Edge) (k : Nat) :
    endpointsPlaced p (l.foldr (assembleEdge L y) ⟨[], [], [], k⟩) = l.countP (contributes p) := by
  induction l with
  | nil => rfl
  | cons e l ih =>
    have hbucket : BucketNamesOpenSpans (l.foldr (assembleEdge L y) ⟨[], [], [], k⟩) :=
      foldr_assembleEdge_keeps (fun _ _ h => (bucketNamesOpenSpans_congr rfl rfl).2 h)
        (fun p ep _ h => bucketNamesOpenSpans_placeEndpoint h p ep) (bucketNamesOpenSpans_empty [] k) l
    rw [List.foldr_cons, endpointsPlaced_assembleEdge hbucket, ih, List.countP_cons]

theorem contributingEdges_eq (p y : Nat) (et : List Edge) :
    contributingEdges p y et = (activeEdges y et).countP (contributes p) := by
  rw [contributingEdges, activeEdges, List.countP_eq_length_filter, List.filter_filter]
  refine congrArg List.length (List.filter_congr fun e _ => ?_)
  rw [contributes, Bool.and_assoc, Bool.and_comm]

/-- Settles O31: the endpoints of a polygon placed by the walk are one per contributing edge, two to a closed span and
at most one left over. -/
theorem spansAreHalfTheContributingEdges : Obligations.SpansAreHalfTheContributingEdges := by
  unfold Obligations.SpansAreHalfTheContributingEdges
  intro L y et k p
  have hplaced := endpointsPlaced_foldr p L y (activeEdges y et) k
  rw [assemble_eq, spansOf_closedSpans, contributingEdges_eq, ← hplaced, endpointsPlaced]
  split <;> omega

/-! ## Columns -/

/-- In a sorted table with a candidate at the column, the cell is the color of the second sample of the span Pick names
(44_depth_resolver.md R357). -/
theorem resolveCell_of_candidate {X : Nat} {st : List Span} (hst : SpansSorted st)
    (h : ∃ sp ∈ st, Candidate X sp) (L : Interpolation) (k : Nat) :
    ∃ b w sp win k', (pick L X st k).1 = some (b, w) ∧ st[b]? = some sp ∧
      sampleSpan L sp X (pick L X st k).2 = (some win, k') ∧ resolveCell L X st k = (contract win.c, k') := by
  have hdeep := pick_deepestFrom hst L X k
  cases hp : (pick L X st k).1 with
  | none =>
    obtain ⟨sp, hmem, hc⟩ := h
    exact absurd hc ((pick_eq_none_iff hst L X k).1 hp sp hmem)
  | some best =>
    obtain ⟨b, w⟩ := best
    rw [hp] at hdeep
    obtain ⟨-, ⟨sp, hsp, hc, -⟩, -⟩ := hdeep
    obtain ⟨-, -, hne⟩ := candidate_iff.1 hc
    obtain ⟨win, k', hwin, -⟩ := sampleSpan_of_ne hne L X (pick L X st k).2
    have hpick : pick L X st k = (some (b, w), (pick L X st k).2) := Prod.ext hp rfl
    refine ⟨b, w, sp, win, k', rfl, hsp, hwin, ?_⟩
    rw [resolveCell, hpick]
    simp only [shade, hsp, hwin]

/-- Settles O35: without a candidate the column is `Unwritten`, with one the winner is sampled again at the column's
grid point. -/
theorem columnCell : Obligations.ColumnCell := by
  unfold Obligations.ColumnCell
  intro L X st k hst
  refine ⟨fun hno => resolveCell_of_no_candidate hst hno L k, fun h => ?_⟩
  rw [← gridPoint_eq]
  exact resolveCell_of_candidate hst h L k

/-- The sweep over a table is the sweep without retirement over it and any spans that have already ended: what is
retired ends before every later column (44_depth_resolver.md R360). -/
theorem sweepWithoutRetiring_append (L : Interpolation) (n X : Nat) (st post : List Span) (k : Nat)
    (hst : ∀ s ∈ st, s.wellOrdered) (hpost : ∀ s ∈ post, endsBefore X s = true ∧ s.wellOrdered) :
    sweepWithoutRetiring L n X (st ++ post) k = ((resolveFrom L n X st k).row, (resolveFrom L n X st k).draws) := by
  induction n generalizing X st post k with
  | zero => rfl
  | succ n ih =>
    obtain ⟨retired, hsplit, hretired⟩ := retireSpans_split X st
    have hlive : ∀ s ∈ retireSpans X st, s.wellOrdered := fun s hs => hst s ((retireSpans_sublist X st).subset hs)
    have hended : ∀ s ∈ retired ++ post, endsBefore X s = true ∧ s.wellOrdered := fun s hs => by
      rcases List.mem_append.1 hs with hs | hs
      · exact ⟨hretired s hs, hst s (hsplit ▸ List.mem_append_right _ hs)⟩
      · exact hpost s hs
    have htable : st ++ post = retireSpans X st ++ (retired ++ post) := by
      rw [← List.append_assoc, ← hsplit]
    rw [htable, sweepWithoutRetiring, resolveCell_append_of_endsBefore hended,
      ih (X + 1) _ _ _ hlive fun s hs => ⟨endsBefore_mono (Nat.le_succ X) (hended s hs).1, (hended s hs).2⟩]
    rfl

/-- Settles O36: the sweep without retirement, with no ended span beside the table. -/
theorem retirementOfSpansDoesNotShow : Obligations.RetirementOfSpansDoesNotShow := by
  unfold Obligations.RetirementOfSpansDoesNotShow
  intro L n X st k _ hordered
  have h := sweepWithoutRetiring_append L n X st [] k hordered (by simp)
  rw [List.append_nil] at h
  exact ⟨congrArg Prod.fst h.symm, congrArg Prod.snd h.symm⟩

end Sys2Proof.Machine
end

section
/-! The assembler text (30_encoding.md R157, R158): the digits of a number spell it, a command's text is read back
before blanks and a comment, and a stream assembles line by line. -/

namespace Sys2Proof.Machine

/-! ## Numbers -/

theorem numeral_append (digit : Char → Option Nat) (base : Nat) (l l' : List Char) (acc : Nat) :
    numeral digit base (l ++ l') acc = (numeral digit base l acc).bind (numeral digit base l') := by
  induction l generalizing acc with
  | nil => rfl
  | cons c l ih =>
    rw [List.cons_append, numeral, numeral]
    cases digit c with
    | none => rfl
    | some d => exact ih _

section
variable {character : Nat → Char} {base fuel n : Nat}

/-- The digits of a number, most significant first, spell it, when each digit's character is read back. -/
theorem numeral_digitsOf {digit : Char → Option Nat} (hbase : 2 ≤ base)
    (hdigit : ∀ d < base, digit (character d) = some d) (hn : n < fuel) :
    numeral digit base (digitsOf character base fuel n) 0 = some n := by
  induction fuel generalizing n with
  | zero => cases hn
  | succ fuel ih =>
    rw [digitsOf]
    split
    case isTrue hlt => simp [numeral, hdigit n hlt]
    case isFalse hge =>
      have hless : n / base < n := Nat.div_lt_self (by omega) hbase
      have hlast : digit (character (n % base)) = some (n % base) := hdigit _ (Nat.mod_lt n (by omega))
      rw [numeral_append, ih (by omega), Option.bind_some]
      simp [numeral, hlast, Nat.div_add_mod']

theorem mem_digitsOf (hbase : 0 < base) {c : Char} (h : c ∈ digitsOf character base fuel n) :
    ∃ d < base, c = character d := by
  induction fuel generalizing n with
  | zero => cases h
  | succ fuel ih =>
    rw [digitsOf] at h
    split at h
    case isTrue hlt => exact ⟨n, hlt, List.mem_singleton.1 h⟩
    case isFalse =>
      rcases List.mem_append.1 h with h | h
      · exact ih h
      · exact ⟨_, Nat.mod_lt n hbase, List.mem_singleton.1 h⟩

theorem digitsOf_ne_nil : digitsOf character base (fuel + 1) n ≠ [] := by
  rw [digitsOf]
  split <;> simp

end

/-! ## Operands -/

/-- A character that neither begins a comment nor is a blank. -/
def isSolid (c : Char) : Bool := decide (c ≠ ';') && !(decide (c = ' ') || decide (c = '\t'))

/-- A text that is read as the operand n, with no blank and no comment in it. -/
structure ReadsAs (t : List Char) (n : Nat) : Prop where
  number : operandNumber t = some n
  nonempty : t ≠ []
  solid : ∀ c ∈ t, isSolid c = true

theorem decimalDigit_digitCharacter : ∀ d < 10, decimalDigit (digitCharacter d) = some d := by decide

theorem hexDigit_hexCharacter : ∀ (capital : Bool), ∀ d < 16, hexDigit (hexCharacter capital d) = some d := by decide

theorem isSolid_digitCharacter : ∀ d < 10, isSolid (digitCharacter d) = true := by decide

theorem isSolid_hexCharacter : ∀ (capital : Bool), ∀ d < 16, isSolid (hexCharacter capital d) = true := by decide

/-- A text with no `x` in it is read as decimal. -/
theorem operandNumber_of_no_x {t : List Char} (ht : t ≠ []) (hx : 'x' ∉ t) :
    operandNumber t = numeral decimalDigit 10 t 0 := by
  unfold operandNumber
  split
  · simp at hx
  · rfl
  · exact absurd rfl ht

theorem readsAs_decimalText (n : Nat) : ReadsAs (decimalText n) n := by
  have hdigits : ∀ c ∈ decimalText n, ∃ d < 10, c = digitCharacter d := fun _ => mem_digitsOf (by decide)
  have hne : decimalText n ≠ [] := digitsOf_ne_nil
  have hx : 'x' ∉ decimalText n := fun hmem => by
    obtain ⟨d, hd, he⟩ := hdigits _ hmem
    exact (by decide : ∀ d < 10, 'x' ≠ digitCharacter d) d hd he
  refine ⟨?_, hne, fun c hc => ?_⟩
  · rw [operandNumber_of_no_x hne hx]
    exact numeral_digitsOf (by decide) decimalDigit_digitCharacter (Nat.lt_succ_self n)
  · obtain ⟨d, hd, rfl⟩ := hdigits c hc
    exact isSolid_digitCharacter d hd

/-- After `0x` a text that is not empty is read as hexadecimal. -/
theorem operandNumber_hex {t : List Char} (ht : t ≠ []) :
    operandNumber ('0' :: 'x' :: t) = numeral hexDigit 16 t 0 := by
  cases t with
  | nil => exact absurd rfl ht
  | cons c t => rfl

theorem readsAs_hexText (capital : Bool) (n : Nat) : ReadsAs (hexText capital n) n := by
  refine ⟨?_, List.cons_ne_nil _ _, fun c hc => ?_⟩
  · rw [hexText, operandNumber_hex digitsOf_ne_nil]
    exact numeral_digitsOf (by decide) (hexDigit_hexCharacter capital) (Nat.lt_succ_self n)
  · rcases List.mem_cons.1 hc with rfl | hc
    · decide
    · rcases List.mem_cons.1 hc with rfl | hc
      · decide
      · obtain ⟨d, hd, rfl⟩ := mem_digitsOf (by decide) hc
        exact isSolid_hexCharacter capital d hd

theorem readsAs_of_text {text : Nat → List Char}
    (h : text = decimalText ∨ text = hexText true ∨ text = hexText false) (n : Nat) : ReadsAs (text n) n := by
  rcases h with rfl | rfl | rfl
  · exact readsAs_decimalText n
  · exact readsAs_hexText true n
  · exact readsAs_hexText false n

theorem ReadsAs.operandText_eq {t : List Char} {n : Nat} (h : ReadsAs t n) (hn : operandFits n = true) :
    operandText t = some n := by
  rw [operandText, h.number]
  exact if_pos hn

/-! ## Commands -/

theorem afterPrefix_append (l t : List Char) : afterPrefix l (l ++ t) = some t := by
  induction l with
  | nil => rfl
  | cons c l ih => rw [List.cons_append, afterPrefix, if_pos rfl, ih]

theorem operandCommand_append {t : List Char} {n : Nat} (h : ReadsAs t n) (hn : operandFits n = true)
    (mnemonic : List Char) (build : Nat → Instr) :
    operandCommand mnemonic build (mnemonic ++ t) = some (build n) := by
  rw [operandCommand, afterPrefix_append]
  simp only [h.operandText_eq hn, Option.map_some]

section
variable {t : List Char} {n : Nat}

theorem parseCommand_submit (h : ReadsAs t n) (hn : operandFits n = true) :
    parseCommand (submitText ++ t) = some (.submit n) := by
  unfold parseCommand
  rw [if_neg (by simp [submitText, initText]), if_neg (by simp [submitText, resetText]),
    if_neg (by simp [submitText, deinitText]), operandCommand_append h hn]

theorem parseCommand_draw (h : ReadsAs t n) (hn : operandFits n = true) :
    parseCommand (drawText ++ t) = some (.draw n) := by
  have hsubmit : operandCommand submitText .submit (drawText ++ t) = none := rfl
  unfold parseCommand
  rw [if_neg (by simp [drawText, initText]), if_neg (by simp [drawText, resetText]),
    if_neg (by simp [drawText, deinitText]), hsubmit, operandCommand_append h hn]

theorem parseCommand_read (h : ReadsAs t n) (hn : operandFits n = true) :
    parseCommand (readText ++ t) = some (.read n) := by
  have hsubmit : operandCommand submitText .submit (readText ++ t) = none := rfl
  have hdraw : operandCommand drawText .draw (readText ++ t) = none := rfl
  unfold parseCommand
  rw [if_neg (by simp [readText, initText]), if_neg (by simp [readText, resetText]),
    if_neg (by simp [readText, deinitText]), hsubmit, hdraw, operandCommand_append h hn]

end

/-- The text of a command, less its blanks and comment, is read back as it. -/
theorem parseCommand_renderCommand {i : Instr} (hi : i.wellFormed = true) {text : Nat → List Char}
    (htext : ∀ n, ReadsAs (text n) n) : parseCommand (renderCommand text i) = some i := by
  cases i with
  | init | reset | deinit => rfl
  | submit n => exact parseCommand_submit (htext n) hi
  | draw n => exact parseCommand_draw (htext n) hi
  | read n => exact parseCommand_read (htext n) hi

/-! ## Lines -/

/-- A line's text ends in something solid and has no comment in it. -/
def EndsSolid (line : List Char) : Prop :=
  ∃ front last, line = front ++ last ∧ last ≠ [] ∧ (∀ c ∈ front, c ≠ ';') ∧ ∀ c ∈ last, isSolid c = true

theorem endsSolid_mnemonic {line : List Char} (hne : line ≠ []) (h : ∀ c ∈ line, isSolid c = true) : EndsSolid line :=
  ⟨[], line, rfl, hne, by simp, h⟩

theorem ReadsAs.endsSolid {t : List Char} {n : Nat} (h : ReadsAs t n) {mnemonic : List Char}
    (hm : ∀ c ∈ mnemonic, c ≠ ';') : EndsSolid (mnemonic ++ t) :=
  ⟨mnemonic, t, rfl, h.nonempty, hm, h.solid⟩

theorem endsSolid_renderCommand {text : Nat → List Char} (htext : ∀ n, ReadsAs (text n) n) (i : Instr) :
    EndsSolid (renderCommand text i) := by
  cases i with
  | init => exact endsSolid_mnemonic (line := initText) (by decide) (by simp [initText, isSolid])
  | reset => exact endsSolid_mnemonic (line := resetText) (by decide) (by simp [resetText, isSolid])
  | deinit => exact endsSolid_mnemonic (line := deinitText) (by decide) (by simp [deinitText, isSolid])
  | submit n => exact (htext n).endsSolid (mnemonic := submitText) (by simp [submitText])
  | draw n => exact (htext n).endsSolid (mnemonic := drawText) (by simp [drawText])
  | read n => exact (htext n).endsSolid (mnemonic := readText) (by simp [readText])

theorem isSolid_iff {c : Char} : isSolid c = true ↔ c ≠ ';' ∧ ¬ (decide (c = ' ') || decide (c = '\t')) = true := by
  simp [isSolid]

section
variable {line : List Char}

theorem EndsSolid.ne_semicolon (h : EndsSolid line) : ∀ c ∈ line, c ≠ ';' := by
  obtain ⟨front, last, rfl, -, hfront, hlast⟩ := h
  intro c hc
  rcases List.mem_append.1 hc with hc | hc
  · exact hfront c hc
  · exact (isSolid_iff.1 (hlast c hc)).1

/-- Only the blanks after a line's text are dropped (log 21). -/
theorem EndsSolid.withoutTrailingBlanks_eq (h : EndsSolid line) (blanks : Nat) :
    withoutTrailingBlanks (line ++ List.replicate blanks ' ') = line := by
  obtain ⟨front, last, rfl, hne, -, hlast⟩ := h
  have hkept : (front ++ last).rdropWhile (fun c => decide (c = ' ') || decide (c = '\t')) = front ++ last := by
    rw [List.rdropWhile_eq_self_iff]
    intro h
    rw [List.getLast_append_of_ne_nil h hne]
    exact (isSolid_iff.1 (hlast _ (List.getLast_mem hne))).2
  unfold withoutTrailingBlanks
  induction blanks with
  | zero => rw [List.replicate_zero, List.append_nil, hkept]
  | succ blanks ih => rw [List.replicate_succ', ← List.append_assoc, List.rdropWhile_concat_pos _ _ _ (by decide), ih]

theorem beforeComment_of_ne (h : ∀ c ∈ line, c ≠ ';') : beforeComment line = line :=
  List.takeWhile_eq_self_iff.2 fun c hc => decide_eq_true (h c hc)

theorem beforeComment_append (h : ∀ c ∈ line, c ≠ ';') (comment : List Char) :
    beforeComment (line ++ ';' :: comment) = line := by
  rw [beforeComment, List.takeWhile_append_of_pos fun c hc => decide_eq_true (h c hc)]
  simp

/-- Blanks and a comment after a line's text do not change what it writes. -/
theorem EndsSolid.parseLine_eq (h : EndsSolid line) (blanks : Nat) (comment : List Char) :
    parseLine line = parseCommand line ∧
    parseLine (line ++ List.replicate blanks ' ' ++ ';' :: comment) = parseCommand line := by
  have hblanks : ∀ c ∈ line ++ List.replicate blanks ' ', c ≠ ';' := fun c hc => by
    rcases List.mem_append.1 hc with hc | hc
    · exact h.ne_semicolon c hc
    · rw [List.eq_of_mem_replicate hc]
      decide
  have hplain := h.withoutTrailingBlanks_eq 0
  rw [List.replicate_zero, List.append_nil] at hplain
  refine ⟨?_, ?_⟩
  · rw [parseLine, beforeComment_of_ne h.ne_semicolon, hplain]
  · rw [parseLine, beforeComment_append hblanks, h.withoutTrailingBlanks_eq]

end

/-! ## Streams -/

theorem assembleLines_cons_eq_some_iff {line : List Char} {lines : List (List Char)} {ws : List Word} :
    assembleLines (line :: lines) = some ws ↔
      ∃ i ws', parseLine line = some i ∧ assembleLines lines = some ws' ∧ ws = encode i :: ws' := by
  rw [assembleLines]
  cases parseLine line with
  | none => simp
  | some i =>
    cases assembleLines lines with
    | none => simp
    | some ws' => simp [eq_comm]

theorem assembleLines_eq_some_iff {lines : List (List Char)} {ws : List Word} :
    assembleLines lines = some ws ↔ ∃ is : List Instr, lines.map parseLine = is.map some ∧ ws = is.map encode := by
  induction lines generalizing ws with
  | nil =>
    constructor
    · rintro ⟨⟩
      exact ⟨[], rfl, rfl⟩
    · rintro ⟨is, his, rfl⟩
      rw [List.map_eq_nil_iff.1 his.symm]
      rfl
  | cons line lines ih =>
    rw [assembleLines_cons_eq_some_iff]
    constructor
    · rintro ⟨i, ws', hline, hlines, rfl⟩
      obtain ⟨is, his, rfl⟩ := ih.1 hlines
      exact ⟨i :: is, by rw [List.map_cons, hline, his, List.map_cons], rfl⟩
    · rintro ⟨is, his, rfl⟩
      cases is with
      | nil => cases his
      | cons i is =>
        obtain ⟨hline, hlines⟩ := List.cons.inj his
        exact ⟨i, is.map encode, hline, ih.2 ⟨is, hlines, rfl⟩, rfl⟩

/-- Settles O5: the digits of an operand spell it in either base (`numeral_digitsOf`), a command's text is read back and
the blanks and comment after it are dropped, and a stream assembles by recursion over its lines. -/
theorem parseOfRender : Obligations.ParseOfRender := by
  unfold Obligations.ParseOfRender
  refine ⟨fun i text blanks comment hi htext => ?_, fun lines ws => assembleLines_eq_some_iff⟩
  have hreads := readsAs_of_text htext
  obtain ⟨hplain, hcommented⟩ := (endsSolid_renderCommand hreads i).parseLine_eq blanks comment
  rw [hplain, hcommented, parseCommand_renderCommand hi hreads]
  exact ⟨rfl, rfl⟩

end Sys2Proof.Machine
end
